-- ==== Sys2Proof/Word.lean ====
section
/-! DEFINITION. The word types of the CHIP-8 core: bytes, 16-bit words, encoding fields, register and
key indices (spec/00_scope.md R10, R11; spec/10_state.md R21, R29). -/

namespace Sys2Proof

/-- A byte: the content of a register `V[i]`, of a timer or of a memory cell (R21, R27, R31). -/
abbrev Byte := BitVec 8

/-- A 16-bit value: `I`, `PC`, a call-stack slot, an instruction word (R23, R24, R26, R90). -/
abbrev Word := BitVec 16

/-- One of the four 4-bit fields of an instruction word (R10, R91). -/
abbrev Nibble := BitVec 4

/-- The 12-bit address field NNN (R91, R92). -/
abbrev Addr12 := BitVec 12

/-- The index of a general register V0..VF (R21). -/
abbrev RegIx := Fin 16

/-- The index of a key 0x0..0xF (R29). -/
abbrev KeyIx := Fin 16

end Sys2Proof
end

