-- ==== Sys2Proof/Syntax.lean ====
section
/-! DEFINITION. The instructions: one constructor per row of spec/opcode_table.json, in the order of
spec/30_encoding.md R93. `x` and `y` are register indices, `nn` an 8-bit immediate, `nnn` a 12-bit address and
`n` a row count. -/

namespace Sys2Proof

/-- The 35 instructions of R93. -/
inductive Instr where
  /-- 0000 (R141). -/
  | nop
  /-- 00E0 (R240). -/
  | cls
  /-- 00EE (R142). -/
  | ret
  /-- 1NNN (R145). -/
  | jp (nnn : Addr12)
  /-- 2NNN (R146). -/
  | call (nnn : Addr12)
  /-- 3XNN (R147). -/
  | seImm (x : RegIx) (nn : Byte)
  /-- 4XNN (R148). -/
  | sneImm (x : RegIx) (nn : Byte)
  /-- 5XY0 (R149). -/
  | seReg (x y : RegIx)
  /-- 6XNN (R170). -/
  | ldImm (x : RegIx) (nn : Byte)
  /-- 7XNN (R171). -/
  | addImm (x : RegIx) (nn : Byte)
  /-- 8XY0 (R172). -/
  | ldReg (x y : RegIx)
  /-- 8XY1 (R173). -/
  | orReg (x y : RegIx)
  /-- 8XY2 (R174). -/
  | andReg (x y : RegIx)
  /-- 8XY3 (R175). -/
  | xorReg (x y : RegIx)
  /-- 8XY4 (R176). -/
  | addReg (x y : RegIx)
  /-- 8XY5 (R177). -/
  | subReg (x y : RegIx)
  /-- 8XY6 (R178): `y` is decoded and ignored (DESIGN CHOICE to keep it in the term, log 8; safe). -/
  | shr (x y : RegIx)
  /-- 8XY7 (R179). -/
  | subnReg (x y : RegIx)
  /-- 8XYE (R180): `y` is decoded and ignored (DESIGN CHOICE to keep it in the term, log 8; safe). -/
  | shl (x y : RegIx)
  /-- 9XY0 (R150). -/
  | sneReg (x y : RegIx)
  /-- ANNN (R210). -/
  | ldI (nnn : Addr12)
  /-- BNNN (R151). -/
  | jpV0 (nnn : Addr12)
  /-- CXNN (R181). -/
  | rnd (x : RegIx) (nn : Byte)
  /-- DXYN (R241): a count of rows, 0..15 in a well-formed instruction (DESIGN CHOICE, log 9; safe). -/
  | drw (x y : RegIx) (n : Nat)
  /-- EX9E (R260). -/
  | skp (x : RegIx)
  /-- EXA1 (R261). -/
  | sknp (x : RegIx)
  /-- FX07 (R263). -/
  | ldVxDt (x : RegIx)
  /-- FX0A (R262). -/
  | ldVxK (x : RegIx)
  /-- FX15 (R264). -/
  | ldDtVx (x : RegIx)
  /-- FX18 (R265). -/
  | ldStVx (x : RegIx)
  /-- FX1E (R211). -/
  | addIVx (x : RegIx)
  /-- FX29 (R212). -/
  | ldFVx (x : RegIx)
  /-- FX33 (R213). -/
  | ldBVx (x : RegIx)
  /-- FX55 (R214). -/
  | ldMemVx (x : RegIx)
  /-- FX65 (R215). -/
  | ldVxMem (x : RegIx)
deriving DecidableEq, Repr

/-- The row of spec/opcode_table.json an instruction belongs to, by that row's mnemonic. -/
def Instr.mnemonic : Instr → String
  | .nop => "NOP"
  | .cls => "CLS"
  | .ret => "RET"
  | .jp _ => "JP_NNN"
  | .call _ => "CALL_NNN"
  | .seImm _ _ => "SE_VX__NN"
  | .sneImm _ _ => "SNE_VX__NN"
  | .seReg _ _ => "SE_VX__VY"
  | .ldImm _ _ => "LD_VX__NN"
  | .addImm _ _ => "ADD_VX__NN"
  | .ldReg _ _ => "LD_VX__VY"
  | .orReg _ _ => "OR_VX__VY"
  | .andReg _ _ => "AND_VX__VY"
  | .xorReg _ _ => "XOR_VX__VY"
  | .addReg _ _ => "ADD_VX__VY"
  | .subReg _ _ => "SUB_VX__VY"
  | .shr _ _ => "SHR_VX____VY"
  | .subnReg _ _ => "SUBN_VX__VY"
  | .shl _ _ => "SHL_VX____VY"
  | .sneReg _ _ => "SNE_VX__VY"
  | .ldI _ => "LD_I__NNN"
  | .jpV0 _ => "JP_V0__NNN"
  | .rnd _ _ => "RND_VX__NN"
  | .drw _ _ _ => "DRW_VX__VY__N"
  | .skp _ => "SKP_VX"
  | .sknp _ => "SKNP_VX"
  | .ldVxDt _ => "LD_VX__DT"
  | .ldVxK _ => "LD_VX__K"
  | .ldDtVx _ => "LD_DT__VX"
  | .ldStVx _ => "LD_ST__VX"
  | .addIVx _ => "ADD_I__VX"
  | .ldFVx _ => "LD_F__VX"
  | .ldBVx _ => "LD_B__VX"
  | .ldMemVx _ => "LD__I___VX"
  | .ldVxMem _ => "LD_VX___I"

end Sys2Proof
end

