-- ==== Sys2Proof/WellFormed.lean ====
section
/-! DEFINITION. When an instruction term is one that a word can hold. The types of `Instr` bound every field but
one: register indices are `Fin 16`, NN is 8 bits and NNN 12 bits (spec/30_encoding.md R91). -/

namespace Sys2Proof

/-- The field that the types leave unbounded: "`N` is the row count 0..15" (R92). Every other
instruction term is well formed by its type. -/
def Instr.wellFormed : Instr → Bool
  | .drw _ _ n => decide (n < 16)
  | .nop | .cls | .ret | .jp _ | .call _ => true
  | .seImm _ _ | .sneImm _ _ | .seReg _ _ | .sneReg _ _ => true
  | .ldImm _ _ | .addImm _ _ | .rnd _ _ => true
  | .ldReg _ _ | .orReg _ _ | .andReg _ _ | .xorReg _ _ => true
  | .addReg _ _ | .subReg _ _ | .subnReg _ _ | .shr _ _ | .shl _ _ => true
  | .ldI _ | .jpV0 _ | .addIVx _ | .ldFVx _ | .ldBVx _ | .ldMemVx _ | .ldVxMem _ => true
  | .skp _ | .sknp _ | .ldVxK _ | .ldVxDt _ | .ldDtVx _ | .ldStVx _ => true

end Sys2Proof
end

