-- ==== Sys2Proof/Decode.lean ====
section
/-! DEFINITION. Decoding and encoding (spec/30_encoding.md R90 to R95): the fields of a word, the decoder, total
on every word and every byte list, the encoder written from the same formats, and the opcode map R93 as
masks and patterns. -/

namespace Sys2Proof

/-! ### The fields of a word (R91) -/

/-- nibble1 = `w[15:12]`, the instruction family. -/
def nibble1 (w : Word) : Nibble := w.extractLsb' 12 4

/-- nibble4 = `w[3:0]`. -/
def nibble4 (w : Word) : Nibble := w.extractLsb' 0 4

/-- X = `w[11:8]`, a register index. -/
def fieldX (w : Word) : RegIx := (w.extractLsb' 8 4).toFin

/-- Y = `w[7:4]`, a register index. -/
def fieldY (w : Word) : RegIx := (w.extractLsb' 4 4).toFin

/-- N = `w[3:0]` as a count of rows. -/
def fieldN (w : Word) : Nat := (nibble4 w).toNat

/-- NN = `w[7:0]`. -/
def fieldNN (w : Word) : Byte := w.extractLsb' 0 8

/-- NNN = `w[11:0]`. -/
def fieldNNN (w : Word) : Addr12 := w.extractLsb' 0 12

/-! ### The decoder (R93, R94) -/

/-- What decoding a word gives: one of the 35 instructions, or `Unimplemented(w)` (R93). -/
inductive Decoded where
  | instr (i : Instr)
  | unimplemented (w : Word)
deriving DecidableEq, Repr

/-- Family 0: three words with all 16 bits fixed; the rest of 0x0NNN is illegal (rows 1 to 3, R94). -/
def decodeFamily0 (w : Word) : Decoded :=
  if w = 0x0000 then .instr .nop
  else if w = 0x00E0 then .instr .cls
  else if w = 0x00EE then .instr .ret
  else .unimplemented w

/-- Family 8: nibble4 selects the operation (rows 11 to 19). -/
def decodeFamily8 (w : Word) : Decoded :=
  if nibble4 w = 0x0 then .instr (.ldReg (fieldX w) (fieldY w))
  else if nibble4 w = 0x1 then .instr (.orReg (fieldX w) (fieldY w))
  else if nibble4 w = 0x2 then .instr (.andReg (fieldX w) (fieldY w))
  else if nibble4 w = 0x3 then .instr (.xorReg (fieldX w) (fieldY w))
  else if nibble4 w = 0x4 then .instr (.addReg (fieldX w) (fieldY w))
  else if nibble4 w = 0x5 then .instr (.subReg (fieldX w) (fieldY w))
  else if nibble4 w = 0x6 then .instr (.shr (fieldX w) (fieldY w))
  else if nibble4 w = 0x7 then .instr (.subnReg (fieldX w) (fieldY w))
  else if nibble4 w = 0xE then .instr (.shl (fieldX w) (fieldY w))
  else .unimplemented w

/-- Family E: the low byte selects the operation (rows 25 and 26). -/
def decodeFamilyE (w : Word) : Decoded :=
  if fieldNN w = 0x9E then .instr (.skp (fieldX w))
  else if fieldNN w = 0xA1 then .instr (.sknp (fieldX w))
  else .unimplemented w

/-- Family F: the low byte selects the operation (rows 27 to 35). -/
def decodeFamilyF (w : Word) : Decoded :=
  if fieldNN w = 0x07 then .instr (.ldVxDt (fieldX w))
  else if fieldNN w = 0x0A then .instr (.ldVxK (fieldX w))
  else if fieldNN w = 0x15 then .instr (.ldDtVx (fieldX w))
  else if fieldNN w = 0x18 then .instr (.ldStVx (fieldX w))
  else if fieldNN w = 0x1E then .instr (.addIVx (fieldX w))
  else if fieldNN w = 0x29 then .instr (.ldFVx (fieldX w))
  else if fieldNN w = 0x33 then .instr (.ldBVx (fieldX w))
  else if fieldNN w = 0x55 then .instr (.ldMemVx (fieldX w))
  else if fieldNN w = 0x65 then .instr (.ldVxMem (fieldX w))
  else .unimplemented w

/-- Decoding "looks at nibble1, and then at the fixed bits that the row names": a pure, total function of the
word (R93, R122); a word of no row is `Unimplemented(w)` (R94). -/
def decodeWord (w : Word) : Decoded :=
  if nibble1 w = 0x0 then decodeFamily0 w
  else if nibble1 w = 0x1 then .instr (.jp (fieldNNN w))
  else if nibble1 w = 0x2 then .instr (.call (fieldNNN w))
  else if nibble1 w = 0x3 then .instr (.seImm (fieldX w) (fieldNN w))
  else if nibble1 w = 0x4 then .instr (.sneImm (fieldX w) (fieldNN w))
  else if nibble1 w = 0x5 then
    if nibble4 w = 0x0 then .instr (.seReg (fieldX w) (fieldY w)) else .unimplemented w
  else if nibble1 w = 0x6 then .instr (.ldImm (fieldX w) (fieldNN w))
  else if nibble1 w = 0x7 then .instr (.addImm (fieldX w) (fieldNN w))
  else if nibble1 w = 0x8 then decodeFamily8 w
  else if nibble1 w = 0x9 then
    if nibble4 w = 0x0 then .instr (.sneReg (fieldX w) (fieldY w)) else .unimplemented w
  else if nibble1 w = 0xA then .instr (.ldI (fieldNNN w))
  else if nibble1 w = 0xB then .instr (.jpV0 (fieldNNN w))
  else if nibble1 w = 0xC then .instr (.rnd (fieldX w) (fieldNN w))
  else if nibble1 w = 0xD then .instr (.drw (fieldX w) (fieldY w) (fieldN w))
  else if nibble1 w = 0xE then decodeFamilyE w
  else decodeFamilyF w

/-- Two bytes as they lie in memory make a word "most-significant byte first" (R63, R90). -/
def wordOfBytes (hi lo : Byte) : Word := hi ++ lo

/-- The more significant byte of a word, the one at the lower address (R63). -/
def highByte (w : Word) : Byte := w.extractLsb' 8 8

/-- The less significant byte of a word, the one at the higher address (R63). -/
def lowByte (w : Word) : Byte := w.extractLsb' 0 8

/-- Why a byte list does not begin with an instruction: fewer than two bytes, or an illegal word (R94). -/
inductive DecodeError where
  | truncated
  | unimplemented (w : Word)
deriving DecidableEq, Repr

/-- The instruction at the front of a byte list and the bytes after it: "a decoder always consumes exactly 2
bytes" (R90). -/
def decodeBytes : List Byte → Except DecodeError (Instr × List Byte)
  | hi :: lo :: rest =>
    match decodeWord (wordOfBytes hi lo) with
    | .instr i => .ok (i, rest)
    | .unimplemented w => .error (.unimplemented w)
  | [_] => .error .truncated
  | [] => .error .truncated

/-- The word that `nbits` bits numbered as spec/opcode_table.json numbers them stand for: every row has 16 bits
(log 24 for another `nbits`). -/
def tableWord (nbits w : Nat) : Word := BitVec.ofNat 16 (w % 2 ^ nbits)

/-- The instruction the decoder reads from a table word, its bytes laid out as the hardware stores them (R63). -/
def decodeTableWord (nbits w : Nat) : Option Instr :=
  match decodeBytes [highByte (tableWord nbits w), lowByte (tableWord nbits w)] with
  | .ok (i, _) => some i
  | .error _ => none

/-! ### The encoder (the formats of R91) -/

/-- A register index as the nibble that names it. -/
def regNibble (x : RegIx) : Nibble := BitVec.ofFin x

/-- Format FA: `[op][NNN]`. -/
def encodeFA (op : Nibble) (nnn : Addr12) : Word := op ++ nnn

/-- Format FI: `[op][X][NN]`; format FX is the same layout with a fixed low byte. -/
def encodeFI (op : Nibble) (x : RegIx) (nn : Byte) : Word := op ++ regNibble x ++ nn

/-- Formats FR and FD: `[op][X][Y][fn]`. -/
def encodeFR (op : Nibble) (x y : RegIx) (fn : Nibble) : Word :=
  op ++ regNibble x ++ regNibble y ++ fn

/-- The word of an instruction (R91, R93). -/
def encode : Instr → Word
  | .nop => 0x0000
  | .cls => 0x00E0
  | .ret => 0x00EE
  | .jp nnn => encodeFA 0x1 nnn
  | .call nnn => encodeFA 0x2 nnn
  | .seImm x nn => encodeFI 0x3 x nn
  | .sneImm x nn => encodeFI 0x4 x nn
  | .seReg x y => encodeFR 0x5 x y 0x0
  | .ldImm x nn => encodeFI 0x6 x nn
  | .addImm x nn => encodeFI 0x7 x nn
  | .ldReg x y => encodeFR 0x8 x y 0x0
  | .orReg x y => encodeFR 0x8 x y 0x1
  | .andReg x y => encodeFR 0x8 x y 0x2
  | .xorReg x y => encodeFR 0x8 x y 0x3
  | .addReg x y => encodeFR 0x8 x y 0x4
  | .subReg x y => encodeFR 0x8 x y 0x5
  | .shr x y => encodeFR 0x8 x y 0x6
  | .subnReg x y => encodeFR 0x8 x y 0x7
  | .shl x y => encodeFR 0x8 x y 0xE
  | .sneReg x y => encodeFR 0x9 x y 0x0
  | .ldI nnn => encodeFA 0xA nnn
  | .jpV0 nnn => encodeFA 0xB nnn
  | .rnd x nn => encodeFI 0xC x nn
  | .drw x y n => encodeFR 0xD x y (BitVec.ofNat 4 n)
  | .skp x => encodeFI 0xE x 0x9E
  | .sknp x => encodeFI 0xE x 0xA1
  | .ldVxDt x => encodeFI 0xF x 0x07
  | .ldVxK x => encodeFI 0xF x 0x0A
  | .ldDtVx x => encodeFI 0xF x 0x15
  | .ldStVx x => encodeFI 0xF x 0x18
  | .addIVx x => encodeFI 0xF x 0x1E
  | .ldFVx x => encodeFI 0xF x 0x29
  | .ldBVx x => encodeFI 0xF x 0x33
  | .ldMemVx x => encodeFI 0xF x 0x55
  | .ldVxMem x => encodeFI 0xF x 0x65

/-- The two bytes of an instruction in memory order (R63). -/
def encodeBytes (i : Instr) : List Byte := [highByte (encode i), lowByte (encode i)]

/-! ### The opcode map as the spec tabulates it (R93) -/

/-- One row of the opcode map: a word belongs to the row when `w & mask = pattern` (R93). -/
structure OpcodeRow where
  mnemonic : String
  mask : Word
  pattern : Word
deriving DecidableEq, Repr

/-- Rows 1 to 19 of R93. -/
def opcodeRowsLow : List OpcodeRow :=
  [⟨"NOP", 0xFFFF, 0x0000⟩, ⟨"CLS", 0xFFFF, 0x00E0⟩, ⟨"RET", 0xFFFF, 0x00EE⟩, ⟨"JP_NNN", 0xF000, 0x1000⟩] ++
  [⟨"CALL_NNN", 0xF000, 0x2000⟩, ⟨"SE_VX__NN", 0xF000, 0x3000⟩, ⟨"SNE_VX__NN", 0xF000, 0x4000⟩] ++
  [⟨"SE_VX__VY", 0xF00F, 0x5000⟩, ⟨"LD_VX__NN", 0xF000, 0x6000⟩, ⟨"ADD_VX__NN", 0xF000, 0x7000⟩] ++
  [⟨"LD_VX__VY", 0xF00F, 0x8000⟩, ⟨"OR_VX__VY", 0xF00F, 0x8001⟩, ⟨"AND_VX__VY", 0xF00F, 0x8002⟩] ++
  [⟨"XOR_VX__VY", 0xF00F, 0x8003⟩, ⟨"ADD_VX__VY", 0xF00F, 0x8004⟩, ⟨"SUB_VX__VY", 0xF00F, 0x8005⟩] ++
  [⟨"SHR_VX____VY", 0xF00F, 0x8006⟩, ⟨"SUBN_VX__VY", 0xF00F, 0x8007⟩, ⟨"SHL_VX____VY", 0xF00F, 0x800E⟩]

/-- Rows 20 to 35 of R93. -/
def opcodeRowsHigh : List OpcodeRow :=
  [⟨"SNE_VX__VY", 0xF00F, 0x9000⟩, ⟨"LD_I__NNN", 0xF000, 0xA000⟩, ⟨"JP_V0__NNN", 0xF000, 0xB000⟩] ++
  [⟨"RND_VX__NN", 0xF000, 0xC000⟩, ⟨"DRW_VX__VY__N", 0xF000, 0xD000⟩, ⟨"SKP_VX", 0xF0FF, 0xE09E⟩] ++
  [⟨"SKNP_VX", 0xF0FF, 0xE0A1⟩, ⟨"LD_VX__DT", 0xF0FF, 0xF007⟩, ⟨"LD_VX__K", 0xF0FF, 0xF00A⟩] ++
  [⟨"LD_DT__VX", 0xF0FF, 0xF015⟩, ⟨"LD_ST__VX", 0xF0FF, 0xF018⟩, ⟨"ADD_I__VX", 0xF0FF, 0xF01E⟩] ++
  [⟨"LD_F__VX", 0xF0FF, 0xF029⟩, ⟨"LD_B__VX", 0xF0FF, 0xF033⟩, ⟨"LD__I___VX", 0xF0FF, 0xF055⟩] ++
  [⟨"LD_VX___I", 0xF0FF, 0xF065⟩]

/-- The 35 rows of R93, in its order. -/
def opcodeTable : List OpcodeRow := opcodeRowsLow ++ opcodeRowsHigh

/-- A word matches a row when its masked bits are the row's pattern (R93). -/
def OpcodeRow.covers (row : OpcodeRow) (w : Word) : Bool := w &&& row.mask == row.pattern

end Sys2Proof
end

