-- ==== Sys2Proof/Config.lean ====
section
/-! DEFINITION. What is fixed for this hardware (the parameters of spec/00_scope.md R5 to R8 and the font of
spec/20_memory.md R66; log 3), and the one value the spec leaves free (the random source of R9; log 1). -/

namespace Sys2Proof

/-- `MEM_SIZE`: valid addresses are `0 .. memSize - 1` (R5, R61). -/
abbrev Config.memSize : Nat := 4096

/-- `ORIGIN`: where a program is loaded and where `PC` stands after reset (R6). -/
abbrev Config.origin : Nat := 0x200

/-- `SCREEN_W`: the framebuffer's width in pixels (R7). -/
abbrev Config.screenW : Nat := 64

/-- `SCREEN_H`: the framebuffer's height in pixels (R7). -/
abbrev Config.screenH : Nat := 32

/-- `STACK_DEPTH`: the call stack's capacity in entries (R8). -/
abbrev Config.stackDepth : Nat := 16

/-- `FONT`, the glyphs of the digits 0 to 7, five rows each (R66). -/
def Config.fontLow : List Byte :=
  [0xF0, 0x90, 0x90, 0x90, 0xF0] ++
  [0x20, 0x60, 0x20, 0x20, 0x70] ++
  [0xF0, 0x10, 0xF0, 0x80, 0xF0] ++
  [0xF0, 0x10, 0xF0, 0x10, 0xF0] ++
  [0x90, 0x90, 0xF0, 0x10, 0x10] ++
  [0xF0, 0x80, 0xF0, 0x10, 0xF0] ++
  [0xF0, 0x80, 0xF0, 0x90, 0xF0] ++
  [0xF0, 0x10, 0x20, 0x40, 0x40]

/-- `FONT`, the glyphs of the digits 8 to F, five rows each (R66). -/
def Config.fontHigh : List Byte :=
  [0xF0, 0x90, 0xF0, 0x90, 0xF0] ++
  [0xF0, 0x90, 0xF0, 0x10, 0xF0] ++
  [0xF0, 0x90, 0xF0, 0x90, 0x90] ++
  [0xE0, 0x90, 0xE0, 0x90, 0xE0] ++
  [0xF0, 0x80, 0x80, 0x80, 0xF0] ++
  [0xE0, 0x90, 0x90, 0x90, 0xE0] ++
  [0xF0, 0x80, 0xF0, 0x80, 0xF0] ++
  [0xF0, 0x80, 0xF0, 0x80, 0x80]

/-- `FONT`: the 80 bytes preloaded at address 0; glyph `n` occupies `5n .. 5n + 4` (R66). -/
def Config.font : List Byte := Config.fontLow ++ Config.fontHigh

/-- `RNG`: the byte that the `n`-th execution of CXNN draws (R9, R33, R181). A FREE VALUE: it has no body, so
nothing can be proved of it but that it is a byte (DESIGN CHOICE, log 1; safe). -/
opaque Config.rngByte : Nat → Byte

end Sys2Proof
end

