-- ==== Sys2Proof/Machine/State.lean ====
section
/-! DEFINITION. The machine state, exactly the tuple of spec/10_state.md R20; beside it the position in the input of
random bytes; the reasons a step can stop, and the state after reset (spec/70_reset_and_hazards.md R340). -/

namespace Sys2Proof.Machine

/-- Memory as the list of the bytes that differ from the reset contents: addresses strictly rising, no entry
equal to what an unlisted address reads as (R31; `Memory.wf` in Machine/Ops.lean; log 4). -/
abbrev Memory := List Host.Cell

/-- The framebuffer: `screenH` rows of `screenW` pixels, true = set (R30; log 10). -/
abbrev Framebuffer := Vector (Vector Bool Config.screenW) Config.screenH

/-- The execution mode (R32). -/
inductive Mode where
  /-- A step fetches and executes. -/
  | running
  /-- A step polls the keys; `x` is the destination register of the pending FX0A. -/
  | waitingForKey (x : RegIx)
deriving DecidableEq, Repr

/-- The error kinds of R300. An error is RETURNED by the operation that raises it, and the state is exactly the
one before that operation (R301, R303). All are the spec's own outcomes: stopping there is what the core does. -/
inductive Fault where
  /-- "decode matched no known instruction pattern"; carries the raw word. Raised by `step` at decode (R94).
  Safe: the core returns the same error. -/
  | unimplementedOpcode (w : Word)
  /-- A memory access outside `0 .. memSize - 1`. Raised by the fetch (R121) and by DXYN, FX33, FX55 and FX65
  (R241, R213, R214, R215). Carries nothing (R300). Safe: the core returns the same error. -/
  | outOfBounds
  /-- "push when stack is full". Raised by 2NNN (R143, R146). Safe: the core returns the same error. -/
  | stackOverflow
  /-- "pop/return when stack is empty". Raised by 00EE (R142, R144). Safe: the core returns the same error. -/
  | stackUnderflow
  /-- The image is longer than the memory from the origin on. Raised by the host call `load` (R323), never by a
  step. Safe: the core returns the same error. -/
  | loadTooLarge
  /-- A key index above 0xF; carries it. Raised by EX9E and EXA1 (R260, R261) and by the host call `set_key`
  (R322). The kind is the spec's own addition (its decisions D12 and D13, log 15). Safe: the model stops. -/
  | invalidKeyIndex (v : Nat)
deriving DecidableEq, Repr

/-- The reasons the model itself could refuse. -/
inductive Refusal where
  /-- `exec` has no meaning for the instruction yet. Raised by no arm: every instruction has its meaning. Safe. -/
  | notModelled (mnemonic : String)
deriving DecidableEq, Repr

/-- THE MACHINE STATE: the tuple of R20 and nothing else, each component with the width of the rule named. -/
structure MachineState where
  /-- `mem`, the one byte memory (R31). -/
  mem : Memory
  /-- `V[0] .. V[15]` (R21); `V[15]` is VF, also the flag register (R22). -/
  regs : Vector Byte 16
  /-- `I`, the address register (R23). -/
  i : Word
  /-- `PC`, the program counter, any 16-bit value (R24). -/
  pc : Word
  /-- `SP`, the number of entries on the call stack, `0 .. stackDepth` (R25). -/
  sp : Fin (Config.stackDepth + 1)
  /-- `stack[0] .. stack[stackDepth - 1]` (R26). -/
  stack : Vector Word Config.stackDepth
  /-- `DT`, the delay timer (R27). -/
  dt : Byte
  /-- `ST`, the sound timer (R28). -/
  st : Byte
  /-- `key[0] .. key[15]`, true = pressed (R29). -/
  key : Vector Bool 16
  /-- `fb`, the framebuffer (R30). -/
  fb : Framebuffer
  /-- `mode`, the execution mode (R32). -/
  mode : Mode
deriving DecidableEq, Repr

/-- What `step` runs on: the machine state, and beside it the position in the input of random bytes, which is "not part
of the machine state" (R33) but an input of the step (R9, R120). -/
structure State extends MachineState where
  /-- THE MODEL'S OWN field, no component of the machine state: how many bytes CXNN has drawn from the free source
  `Config.rngByte` (R9, R33; DESIGN CHOICE, log 1). -/
  rngDraws : Nat
deriving DecidableEq, Repr

/-- The initial machine state (R340): nothing listed in memory, so it reads as the font and zeros; every register,
slot, timer, key and pixel zero or false; `PC` at the origin; `Running`. -/
def MachineState.initial : MachineState where
  mem := []
  regs := Vector.replicate 16 0
  i := 0
  pc := BitVec.ofNat 16 Config.origin
  sp := 0
  stack := Vector.replicate Config.stackDepth 0
  dt := 0
  st := 0
  key := Vector.replicate 16 false
  fb := Vector.replicate Config.screenH (Vector.replicate Config.screenW false)
  mode := .running

/-- The initial machine state, with no random byte drawn yet. The draw counter's 0 is a DESIGN CHOICE (log 1), and no
statement rests on it. -/
def State.reset : State where
  toMachineState := MachineState.initial
  rngDraws := 0

end Sys2Proof.Machine
end

