-- ==== Sys2Proof/Machine/Ops.lean ====
section
/-! DEFINITION. The named operations over memory, registers, call stack, framebuffer and program counter, the
bounds check, the fetch, and raising an error (spec/00_scope.md R12; spec/20_memory.md; spec/41_control.md). -/

namespace Sys2Proof.Machine

/-! ### Memory (R31, R60 to R73) -/

/-- What an address that memory does not list reads as: the reset contents, the font at 0..79 and 0 at every
other address (R31, R340). -/
def Memory.background (a : Nat) : Byte := Config.font.getD a 0

/-- The byte at an address; the caller has checked the address (R62). -/
def Memory.read : Memory → Nat → Byte
  | [], a => Memory.background a
  | (k, b) :: rest, a => if a = k then b else Memory.read rest a

/-- Write one byte, keeping the canonical form: the entry goes to its place, and an entry equal to the reset
contents is not listed. "A write changes exactly the byte written" (R69). -/
def Memory.write : Memory → Nat → Byte → Memory
  | [], a, b => if b = Memory.background a then [] else [(a, b)]
  | (k, c) :: rest, a, b =>
    if a < k then
      if b = Memory.background a then (k, c) :: rest else (a, b) :: (k, c) :: rest
    else if a = k then
      if b = Memory.background a then rest else (a, b) :: rest
    else (k, c) :: Memory.write rest a b

/-- Write consecutive bytes from an address on. -/
def Memory.writeList : Memory → Nat → List Byte → Memory
  | m, _, [] => m
  | m, a, b :: bs => Memory.writeList (Memory.write m a b) (a + 1) bs

/-- The canonical form: addresses strictly rising and below `memSize`, no entry equal to the reset contents. -/
abbrev Memory.wf (m : Memory) : Prop :=
  m.Pairwise (fun c d => c.1 < d.1) ∧ ∀ c ∈ m, c.1 < Config.memSize ∧ c.2 ≠ Memory.background c.1

/-- All of the `n` byte addresses `a .. a + n - 1` are valid; no address is checked when `n = 0` (R62, R65).
Addresses are natural numbers and are not wrapped (R62; the spec's decision D9, log 12). -/
abbrev InMemory (a n : Nat) : Prop := n = 0 ∨ a + n ≤ Config.memSize

/-! ### Errors (R300 to R303) -/

/-- Raise an error: the operation ends with it. "Trap entry saves nothing and changes nothing" (R303): no vector,
no saved register, no mode change, and no return from it (R304), so the error is the whole outcome and the
state stays as it was before the operation (R301; log 7). -/
def raise (e : Fault) : Host.Outcome State Fault Refusal := .fault e

/-- The bounds check that stands before every access: all bytes are checked before any effect (R62, R65). -/
def whenInMemory (a n : Nat) (k : Host.Outcome State Fault Refusal) : Host.Outcome State Fault Refusal :=
  if InMemory a n then k else raise .outOfBounds

/-! ### Components (R12) -/

/-- `V[x]` (R21). -/
def State.getV (s : State) (x : RegIx) : Byte := s.regs[x]

/-- `V[x] <- b` (R21). -/
def State.setV (s : State) (x : RegIx) (b : Byte) : State := { s with regs := s.regs.set x b }

/-- The index of VF, the flag register (R22). -/
abbrev flagReg : RegIx := 15

/-- `V[x] <- result`, then `V[F] <- flag`: the flag is written last, so for `x = F` VF holds the flag (R22, R12;
the spec's decision D10, log 13). -/
def State.setVFlag (s : State) (x : RegIx) (result flag : Byte) : State :=
  (s.setV x result).setV flagReg flag

/-- `I <- w` (R23). -/
def State.setI (s : State) (w : Word) : State := { s with i := w }

/-- `PC <- w` (R24). -/
def State.setPc (s : State) (w : Word) : State := { s with pc := w }

/-- `DT <- b` (R27). -/
def State.setDt (s : State) (b : Byte) : State := { s with dt := b }

/-- `ST <- b` (R28). -/
def State.setSt (s : State) (b : Byte) : State := { s with st := b }

/-- `mode <- m` (R32). -/
def State.setMode (s : State) (m : Mode) : State := { s with mode := m }

/-- `key[k] <- p` (R29). -/
def State.setKey (s : State) (k : KeyIx) (p : Bool) : State := { s with key := s.key.set k p }

/-- `fb <- f` (R30). -/
def State.setFb (s : State) (f : Framebuffer) : State := { s with fb := f }

/-- `MemRead(a, 1)` at a checked address (R12). -/
def State.readByte (s : State) (a : Nat) : Byte := s.mem.read a

/-- `MemWrite` of consecutive bytes at checked addresses, in rising order (R12). -/
def State.writeBytes (s : State) (a : Nat) (bs : List Byte) : State :=
  { s with mem := s.mem.writeList a bs }

/-- `fb[x, y]`: column `x`, row `y` (R30). -/
def State.pixel (s : State) (x : Fin Config.screenW) (y : Fin Config.screenH) : Bool := s.fb[y][x]

/-- Draw one random byte (R9): the free byte of this draw, and one draw more. -/
def State.drawRandom (s : State) : Byte × State :=
  (Config.rngByte s.rngDraws, { s with rngDraws := s.rngDraws + 1 })

/-! ### Program counter (R121, R140) -/

/-- The width of an instruction in bytes (R90). -/
abbrev instrBytes : Word := 2

/-- The fetch advance, done before execution: `PC <- (PC + 2) mod 2^16` (R121). -/
def State.advance (s : State) : State := s.setPc (s.pc + instrBytes)

/-- A skip adds one more instruction width to `PC`, modulo 2^16 (R140). -/
def State.skip (s : State) : State := s.setPc (s.pc + instrBytes)

/-- Skip when the condition holds; otherwise `PC` stays (R140). -/
def State.skipIf (s : State) (c : Bool) : State := if c then s.skip else s

/-- Undo the fetch advance: "PC rewound by 2" (R262). -/
def State.rewind (s : State) : State := s.setPc (s.pc - instrBytes)

/-- Fetch's bounds check and word: `none` when `PC` or `PC + 1` is no valid address, else the two bytes at `PC`,
most significant first, whatever the parity of `PC` (R121, R63, R64). -/
def State.fetchWord (s : State) : Option Word :=
  if s.pc.toNat + 1 < Config.memSize then
    some (wordOfBytes (s.readByte s.pc.toNat) (s.readByte (s.pc.toNat + 1)))
  else none

/-! ### The call stack (R143, R144) -/

/-- `stack[SP] <- v; SP <- SP + 1`; `none` when the stack is full (R143). -/
def State.push (s : State) (v : Word) : Option State :=
  if h : s.sp.val < Config.stackDepth then
    some { s with stack := s.stack.set s.sp.val v h, sp := ⟨s.sp.val + 1, Nat.succ_lt_succ h⟩ }
  else none

/-- `SP <- SP - 1; return stack[SP]`; `none` when the stack is empty. The popped slot keeps its content (R144). -/
def State.pop (s : State) : Option (Word × State) :=
  match s.sp with
  | ⟨0, _⟩ => none
  | ⟨n + 1, h⟩ =>
    some (s.stack[n]'(Nat.lt_of_succ_lt_succ h), { s with sp := ⟨n, Nat.lt_of_succ_lt h⟩ })

end Sys2Proof.Machine
end

