-- ==== Sys2Proof/Machine/Operands.lean ====
section
/-! DEFINITION. The operand forms: how a field or a register becomes the value an instruction works on
(spec/30_encoding.md R92, spec/20_memory.md R62, spec/43_index_memory.md, spec/45_keys_timers.md). -/

namespace Sys2Proof.Machine

/-- NNN where it meets I or PC: zero-extended to 16 bits, neither scaled nor shifted (R92). -/
def zext16 (nnn : Addr12) : Word := nnn.setWidth 16

/-- A V register's byte where it meets I or PC: zero-extended to 16 bits (R11, R151, R211). -/
def byteToWord (b : Byte) : Word := b.setWidth 16

/-- The `k`-th byte address of an access through I: `I + k`, an exact natural number, not wrapped (R62). -/
def iAddr (s : State) (k : Nat) : Nat := s.i.toNat + k

/-- The `n` byte addresses of an access through I. -/
def iAddrs (s : State) (n : Nat) : List Nat := (List.range n).map (iAddr s)

/-- "font glyph base address": `VX * 5`, the full byte multiplied (R212). -/
def glyphAddr (v : Byte) : Word := BitVec.ofNat 16 (v.toNat * 5)

/-- The decimal digits of a byte: hundreds, tens, ones (R213). -/
def bcdDigits (v : Byte) : List Byte :=
  [BitVec.ofNat 8 (v.toNat / 100), BitVec.ofNat 8 (v.toNat / 10 % 10), BitVec.ofNat 8 (v.toNat % 10)]

/-- The registers `V0 .. VX` in order (R214). -/
def regsUpTo (s : State) (x : RegIx) : List Byte := s.regs.toList.take (x.val + 1)

/-- A key index held in a V register: `none` above 0xF (R260, R261; the spec's decision D12, log 15). -/
def keyIndex (v : Byte) : Option KeyIx := if h : v.toNat < 16 then some ⟨v.toNat, h⟩ else none

/-- The lowest-indexed pressed key, by level (R125, R126, R262). -/
def lowestPressed (s : State) : Option KeyIx := (List.finRange 16).find? (fun k => s.key[k])

/-- A key index as the byte a register receives (R125, R262). -/
def keyByte (k : KeyIx) : Byte := BitVec.ofNat 8 k.val

end Sys2Proof.Machine
end

