-- ==== Sys2Proof/Machine/Flags.lean ====
section
/-! DEFINITION. Every flag computation: the byte that a flag instruction writes into VF last
(spec/42_alu.md R182, spec/44_display.md R241). -/

namespace Sys2Proof.Machine

/-- A flag as the byte VF receives: 1 or 0. -/
def flagByte (b : Bool) : Byte := if b then 1 else 0

/-- Carry of 8XY4: `vx + vy > 255` on exact sums (R182, R176). -/
def carryFlag (vx vy : Byte) : Byte := flagByte (decide (vx.toNat + vy.toNat > 255))

/-- "No borrow" of 8XY5 and 8XY7: `minuend >= subtrahend`, so equal operands give 1 (R182, R177, R179). -/
def noBorrowFlag (minuend subtrahend : Byte) : Byte := flagByte (decide (minuend.toNat ≥ subtrahend.toNat))

/-- The bit 8XY6 shifts out: bit 0 (R182, R178). -/
def shrFlag (vx : Byte) : Byte := vx &&& 1

/-- The bit 8XYE shifts out: bit 7 (R182, R180). -/
def shlFlag (vx : Byte) : Byte := (vx >>> 7) &&& 1

/-- DXYN's flag: 1 if any set pixel was turned off (R241, R243). -/
def collisionFlag (collision : Bool) : Byte := flagByte collision

end Sys2Proof.Machine
end

