-- ==== Sys2Proof/Machine/Alu.lean ====
section
/-! DEFINITION. Register and ALU instructions and the random byte (spec/42_alu.md). Operands are read on entry;
arithmetic wraps modulo 256 (R182); where a flag is written it is written last (R22). -/

namespace Sys2Proof.Machine

/-- 6XNN: `VX <- NN` (R170). -/
def execLdImm (x : RegIx) (nn : Byte) (s : State) : Host.Outcome State Fault Refusal := .next (s.setV x nn)

/-- 7XNN: `VX <- VX + NN mod 256`, no flag (R171). -/
def execAddImm (x : RegIx) (nn : Byte) (s : State) : Host.Outcome State Fault Refusal :=
  .next (s.setV x (s.getV x + nn))

/-- 8XY0: `VX <- VY` (R172). -/
def execLdReg (x y : RegIx) (s : State) : Host.Outcome State Fault Refusal := .next (s.setV x (s.getV y))

/-- 8XY1: `VX <- VX | VY`, no flag (R173). -/
def execOrReg (x y : RegIx) (s : State) : Host.Outcome State Fault Refusal :=
  .next (s.setV x (s.getV x ||| s.getV y))

/-- 8XY2: `VX <- VX & VY`, no flag (R174). -/
def execAndReg (x y : RegIx) (s : State) : Host.Outcome State Fault Refusal :=
  .next (s.setV x (s.getV x &&& s.getV y))

/-- 8XY3: `VX <- VX ^ VY`, no flag (R175). -/
def execXorReg (x y : RegIx) (s : State) : Host.Outcome State Fault Refusal :=
  .next (s.setV x (s.getV x ^^^ s.getV y))

/-- 8XY4: `VX <- VX + VY mod 256`, then VF <- carry (R176). -/
def execAddReg (x y : RegIx) (s : State) : Host.Outcome State Fault Refusal :=
  .next (s.setVFlag x (s.getV x + s.getV y) (carryFlag (s.getV x) (s.getV y)))

/-- 8XY5: `VX <- VX - VY mod 256`, then VF <- no borrow (R177). -/
def execSubReg (x y : RegIx) (s : State) : Host.Outcome State Fault Refusal :=
  .next (s.setVFlag x (s.getV x - s.getV y) (noBorrowFlag (s.getV x) (s.getV y)))

/-- 8XY6: `VX <- VX >> 1`, then VF <- the old bit 0; Y is not read (R178). -/
def execShr (x _y : RegIx) (s : State) : Host.Outcome State Fault Refusal :=
  .next (s.setVFlag x (s.getV x >>> 1) (shrFlag (s.getV x)))

/-- 8XY7: `VX <- VY - VX mod 256`, then VF <- no borrow (R179). -/
def execSubnReg (x y : RegIx) (s : State) : Host.Outcome State Fault Refusal :=
  .next (s.setVFlag x (s.getV y - s.getV x) (noBorrowFlag (s.getV y) (s.getV x)))

/-- 8XYE: `VX <- VX << 1 mod 256`, then VF <- the old bit 7; Y is not read (R180). -/
def execShl (x _y : RegIx) (s : State) : Host.Outcome State Fault Refusal :=
  .next (s.setVFlag x (s.getV x <<< 1) (shlFlag (s.getV x)))

/-- CXNN: one byte is drawn, also for `NN = 0`, and `VX <- byte & NN` (R181; a free value, log 1). -/
def execRnd (x : RegIx) (nn : Byte) (s : State) : Host.Outcome State Fault Refusal :=
  .next (s.drawRandom.2.setV x (s.drawRandom.1 &&& nn))

end Sys2Proof.Machine
end

