-- ==== Sys2Proof/Machine/Control.lean ====
section
/-! DEFINITION. Control transfer: no-op, return, jumps, call and skips (spec/41_control.md). Every meaning works on
the state after the fetch advance, so `PC` is the address after the instruction (R121, R140). No target is
checked; only the next fetch checks it (R152; the spec's decision D7, log 11). -/

namespace Sys2Proof.Machine

/-- 0000: no-op (R141). -/
def execNop (s : State) : Host.Outcome State Fault Refusal := .next s

/-- 00EE: `PC <- pop()`; StackUnderflow when the stack is empty (R142). -/
def execRet (s : State) : Host.Outcome State Fault Refusal :=
  match s.pop with
  | none => raise .stackUnderflow
  | some (v, t) => .next (t.setPc v)

/-- 1NNN: `PC <- NNN` (R145). -/
def execJp (nnn : Addr12) (s : State) : Host.Outcome State Fault Refusal := .next (s.setPc (zext16 nnn))

/-- 2NNN: push the address after the call, then `PC <- NNN`; StackOverflow when the stack is full (R146). -/
def execCall (nnn : Addr12) (s : State) : Host.Outcome State Fault Refusal :=
  match s.push s.pc with
  | none => raise .stackOverflow
  | some t => .next (t.setPc (zext16 nnn))

/-- 3XNN: skip if `VX = NN` (R147). -/
def execSeImm (x : RegIx) (nn : Byte) (s : State) : Host.Outcome State Fault Refusal :=
  .next (s.skipIf (s.getV x == nn))

/-- 4XNN: skip if `VX != NN` (R148). -/
def execSneImm (x : RegIx) (nn : Byte) (s : State) : Host.Outcome State Fault Refusal :=
  .next (s.skipIf (s.getV x != nn))

/-- 5XY0: skip if `VX = VY` (R149). -/
def execSeReg (x y : RegIx) (s : State) : Host.Outcome State Fault Refusal :=
  .next (s.skipIf (s.getV x == s.getV y))

/-- 9XY0: skip if `VX != VY` (R150). -/
def execSneReg (x y : RegIx) (s : State) : Host.Outcome State Fault Refusal :=
  .next (s.skipIf (s.getV x != s.getV y))

/-- BNNN: `PC <- V0 + NNN`, always V0 (R151). -/
def execJpV0 (nnn : Addr12) (s : State) : Host.Outcome State Fault Refusal :=
  .next (s.setPc (byteToWord (s.getV 0) + zext16 nnn))

end Sys2Proof.Machine
end

