-- ==== Sys2Proof/Machine/Display.lean ====
section
/-! DEFINITION. Display instructions: clear, and the XOR sprite blit with wraparound and collision
(spec/44_display.md). -/

namespace Sys2Proof.Machine

/-- The framebuffer with every pixel false (R240). -/
def clearFb : Framebuffer := Vector.replicate Config.screenH (Vector.replicate Config.screenW false)

/-- `fb[x, y] <- fb[x, y] xor true`: a draw changes a pixel only by XOR (R30, R241). -/
def togglePixel (f : Framebuffer) (x : Fin Config.screenW) (y : Fin Config.screenH) : Framebuffer :=
  f.set y (f[y].set x (f[y][x] ^^ true))

/-- A column reduced modulo the screen's width (R242). -/
def wrapX (n : Nat) : Fin Config.screenW := Fin.ofNat Config.screenW n

/-- A row reduced modulo the screen's height (R242). -/
def wrapY (n : Nat) : Fin Config.screenH := Fin.ofNat Config.screenH n

/-- Bit `7 - col` of a sprite row: "most-significant first" (R241). -/
def spriteBit (b : Byte) (col : Nat) : Bool := b.getLsbD (7 - col)

/-- One column of one sprite row: a 1 bit ORs the pixel's prior value into the collision and toggles the pixel;
a 0 bit leaves both (R241). The column offset moves x only and the row offset y only. -/
def blitPixel (ox oy row : Nat) (b : Byte) (acc : Framebuffer × Bool) (col : Nat) : Framebuffer × Bool :=
  if spriteBit b col then
    (togglePixel acc.1 (wrapX (ox + col)) (wrapY (oy + row)),
     acc.2 || acc.1[wrapY (oy + row)][wrapX (ox + col)])
  else acc

/-- The eight columns of one sprite row, in column order (R241, R243). -/
def blitRow (ox oy row : Nat) (b : Byte) (acc : Framebuffer × Bool) : Framebuffer × Bool :=
  (List.range 8).foldl (blitPixel ox oy row b) acc

/-- The rows of a sprite, in row order: the framebuffer after them and whether any set pixel was turned off;
`rowByte` gives the sprite's bytes (R241, R243). -/
def blit (ox oy n : Nat) (rowByte : Nat → Byte) (f : Framebuffer) : Framebuffer × Bool :=
  (List.range n).foldl (fun acc row => blitRow ox oy row (rowByte row) acc) (f, false)

/-- The column where a sprite starts: `VX mod SCREEN_W` (R242). -/
def originX (s : State) (x : RegIx) : Nat := (s.getV x).toNat % Config.screenW

/-- The row where a sprite starts: `VY mod SCREEN_H` (R242). -/
def originY (s : State) (y : RegIx) : Nat := (s.getV y).toNat % Config.screenH

/-- The sprite at I drawn on the state's framebuffer (R241). -/
def spriteBlit (x y : RegIx) (n : Nat) (s : State) : Framebuffer × Bool :=
  blit (originX s x) (originY s y) n (fun row => s.readByte (iAddr s row)) s.fb

/-- 00E0: every pixel false, VF unchanged (R240). -/
def execCls (s : State) : Host.Outcome State Fault Refusal := .next (s.setFb clearFb)

/-- DXYN: all row addresses are checked, the sprite is blitted, and VF <- collision last (R241). With `N = 0`
nothing is read or drawn and VF becomes 0 (the spec's decision D15, log 17). -/
def execDrw (x y : RegIx) (n : Nat) (s : State) : Host.Outcome State Fault Refusal :=
  whenInMemory (iAddr s 0) n
    (.next ((s.setFb (spriteBlit x y n s).1).setV flagReg (collisionFlag (spriteBlit x y n s).2)))

end Sys2Proof.Machine
end

