-- ==== Sys2Proof/Machine/IndexMemory.lean ====
section
/-! DEFINITION. Index register and memory instructions (spec/43_index_memory.md). All addresses are checked before
any write (R62); I is unchanged by the stores and loads. -/

namespace Sys2Proof.Machine

/-- ANNN: `I <- NNN` (R210). -/
def execLdI (nnn : Addr12) (s : State) : Host.Outcome State Fault Refusal := .next (s.setI (zext16 nnn))

/-- FX1E: `I <- I + VX mod 65536`, no flag (R211). -/
def execAddIVx (x : RegIx) (s : State) : Host.Outcome State Fault Refusal :=
  .next (s.setI (s.i + byteToWord (s.getV x)))

/-- FX29: `I <- VX * 5` (R212). -/
def execLdFVx (x : RegIx) (s : State) : Host.Outcome State Fault Refusal :=
  .next (s.setI (glyphAddr (s.getV x)))

/-- FX33: hundreds, tens and ones of VX to `mem[I]`, `mem[I+1]`, `mem[I+2]` (R213). -/
def execLdBVx (x : RegIx) (s : State) : Host.Outcome State Fault Refusal :=
  whenInMemory (iAddr s 0) 3 (.next (s.writeBytes (iAddr s 0) (bcdDigits (s.getV x))))

/-- FX55: `V0 .. VX` to `mem[I] .. mem[I+X]` (R214). -/
def execLdMemVx (x : RegIx) (s : State) : Host.Outcome State Fault Refusal :=
  whenInMemory (iAddr s 0) (x.val + 1) (.next (s.writeBytes (iAddr s 0) (regsUpTo s x)))

/-- `V[k] <- mem[I + k]` for `k` in `0 .. x`, the other registers unchanged (R215). -/
def State.loadRegs (s : State) (x : RegIx) : State :=
  { s with regs := Vector.ofFn fun k : RegIx => if k ≤ x then s.readByte (iAddr s k.val) else s.getV k }

/-- FX65: `mem[I] .. mem[I+X]` to `V0 .. VX` (R215). -/
def execLdVxMem (x : RegIx) (s : State) : Host.Outcome State Fault Refusal :=
  whenInMemory (iAddr s 0) (x.val + 1) (.next (s.loadRegs x))

end Sys2Proof.Machine
end

