-- ==== Sys2Proof/Machine/KeysTimers.lean ====
section
/-! DEFINITION. Key and timer instructions and the key-wait poll (spec/45_keys_timers.md, spec/40_engine.md R125,
R126). -/

namespace Sys2Proof.Machine

/-- The common part of EX9E and EXA1: `InvalidKeyIndex(VX)` above 0xF (the spec's decision D12, log 15), else
skip on the level of key VX that the instruction asks for (R260, R261). -/
def skipOnKey (x : RegIx) (pressed : Bool) (s : State) : Host.Outcome State Fault Refusal :=
  match keyIndex (s.getV x) with
  | none => raise (.invalidKeyIndex (s.getV x).toNat)
  | some k => .next (s.skipIf (s.key[k] == pressed))

/-- EX9E: skip if key VX is pressed (R260). -/
def execSkp (x : RegIx) (s : State) : Host.Outcome State Fault Refusal := skipOnKey x true s

/-- EXA1: skip if key VX is not pressed (R261). -/
def execSknp (x : RegIx) (s : State) : Host.Outcome State Fault Refusal := skipOnKey x false s

/-- FX0A: `VX <-` the lowest pressed key; with none pressed the fetch advance is undone and the machine waits
(R262; the spec's decision D11, log 14). -/
def execLdVxK (x : RegIx) (s : State) : Host.Outcome State Fault Refusal :=
  match lowestPressed s with
  | some k => .next (s.setV x (keyByte k))
  | none => .next (s.rewind.setMode (.waitingForKey x))

/-- A step while `WaitingForKey(x)`: nothing is fetched; with a key pressed `VX <-` the lowest one, PC moves past
the FX0A and the mode is Running, otherwise nothing changes. A poll never fails (R125). -/
def keyWaitPoll (x : RegIx) (s : State) : Host.Outcome State Fault Refusal :=
  match lowestPressed s with
  | some k => .next ((s.setV x (keyByte k)).advance.setMode .running)
  | none => .next s

/-- FX07: `VX <- DT` (R263). -/
def execLdVxDt (x : RegIx) (s : State) : Host.Outcome State Fault Refusal := .next (s.setV x s.dt)

/-- FX15: `DT <- VX` (R264). -/
def execLdDtVx (x : RegIx) (s : State) : Host.Outcome State Fault Refusal := .next (s.setDt (s.getV x))

/-- FX18: `ST <- VX` (R265). -/
def execLdStVx (x : RegIx) (s : State) : Host.Outcome State Fault Refusal := .next (s.setSt (s.getV x))

end Sys2Proof.Machine
end

