-- ==== Sys2Proof/Machine/Step.lean ====
section
/-! DEFINITION. One call of `step()` (spec/40_engine.md R120), and how the host places an instruction to run. -/

namespace Sys2Proof.Machine

/-- `step()` (R120): "checked at the top of each step", the mode decides between a poll (R125) and fetch, PC advance,
decode and execute (R121 to R123). The checks run in the order fetch bounds, decode, the instruction's own (R127).
An error is the whole outcome; the state stays the one before the call (R301; log 7). -/
def step (s : State) : Host.Outcome State Fault Refusal :=
  match s.mode with
  | .waitingForKey x => keyWaitPoll x s
  | .running =>
    match s.fetchWord with
    | none => raise .outOfBounds
    | some w =>
      match decodeWord w with
      | .unimplemented u => raise (.unimplementedOpcode u)
      | .instr i => exec i s.advance

/-- Where `withFetchWord` places an instruction: at `PC`, or at the origin when nothing can be fetched at `PC`
(log 5). -/
def fetchPlace (s : State) : Word :=
  if s.pc.toNat + 1 < Config.memSize then s.pc else BitVec.ofNat 16 Config.origin

/-- The state in which the very next step fetches and runs the given table word: its two bytes stand where `PC`
fetches, most significant first, and the machine is Running (log 5). It stands for a program loaded by the host. -/
def State.withFetchWord (s : State) (nbits w : Nat) : State :=
  ((s.setMode .running).setPc (fetchPlace s)).writeBytes (fetchPlace s).toNat
    [highByte (tableWord nbits w), lowByte (tableWord nbits w)]

end Sys2Proof.Machine
end

