-- ==== Sys2Proof/Machine/HostCalls.lean ====
section
/-! DEFINITION. The host's operations of spec/60_exceptions.md R320 to R328: construct, reset, load, step,
tick_timers, set_key and framebuffer, each one atomic transition, and a sequence of them (log 6). -/

namespace Sys2Proof.Machine

/-- `construct()`: the initial machine state (R320, R340). The random source is the host's and is not restarted: the
position in its input stays (R33; log 2). -/
def hostConstruct (s : State) : State := { s with toMachineState := MachineState.initial }

/-- `reset()`: the whole machine state becomes the initial one, in either mode and after any error (R321, R341). It does
not touch the random source (R33), so the position in its input stays (log 2). -/
def hostReset (s : State) : State := { s with toMachineState := MachineState.initial }

/-- `load(bytes)`: LoadTooLarge when the image is longer than the memory from the origin on; else the bytes from the
origin on, and nothing else (R323). -/
def hostLoad (bytes : List Byte) (s : State) : Host.Outcome State Fault Refusal :=
  if bytes.length > Config.memSize - Config.origin then raise .loadTooLarge
  else .next (s.writeBytes Config.origin bytes)

/-- A timer counts down by one and stops at 0 (R310, R311). -/
def countDown (b : Byte) : Byte := if b.toNat > 0 then b - 1 else 0

/-- The tone edge of a tick: `ST` was exactly 1 before it (R311; the spec's decision D20, log 19). -/
def toneEdge (s : State) : Bool := s.st == 1

/-- `tick_timers()`: DT and ST count down, in either mode, and the tone edge is returned (R310 to R312). -/
def hostTick (s : State) : State × Bool :=
  ((s.setDt (countDown s.dt)).setSt (countDown s.st), toneEdge s)

/-- `set_key(k, pressed)`: `key[k] <- pressed`; InvalidKeyIndex above 15 (R322; the spec's decision D13, log 15). -/
def hostSetKey (k : Nat) (pressed : Bool) (s : State) : Host.Outcome State Fault Refusal :=
  if h : k < 16 then .next (s.setKey ⟨k, h⟩ pressed) else raise (.invalidKeyIndex k)

/-- `framebuffer()`: the pixel grid (R325). -/
def hostFramebuffer (s : State) : Framebuffer := s.fb

/-- The grid stored linearly: pixel `(x, y)` at index `y * SCREEN_W + x` (R30, R242). -/
def linearFb (f : Framebuffer) : List Bool := (f.toList.map Vector.toList).flatten

/-- A call the host can make (R320 to R326). -/
inductive HostCall where
  | construct
  | reset
  | load (bytes : List Byte)
  | step
  | tickTimers
  | setKey (k : Nat) (pressed : Bool)
  | framebuffer
deriving DecidableEq, Repr

/-- What a call returns to the host beside the new state (R13, R328). -/
inductive Reply where
  /-- Ok. -/
  | ok
  /-- An error of R300: the state is the one before the call. -/
  | error (e : Fault)
  /-- The model refused; no call is ever answered so. -/
  | refused (r : Refusal)
  /-- The tone edge that `tick_timers()` returns (R311). -/
  | tone (edge : Bool)
  /-- The grid that `framebuffer()` returns (R325). -/
  | grid (f : Framebuffer)
deriving DecidableEq, Repr

/-- An outcome seen by the host: a new state with Ok, or the state BEFORE the call with the error (R301). -/
def settle (before : State) : Host.Outcome State Fault Refusal → State × Reply
  | .next t => (t, .ok)
  | .fault e => (before, .error e)
  | .refused r => (before, .refused r)

/-- One host call: one atomic transition (R327). -/
def call (c : HostCall) (s : State) : State × Reply :=
  match c with
  | .construct => (hostConstruct s, .ok)
  | .reset => (hostReset s, .ok)
  | .load bytes => settle s (hostLoad bytes s)
  | .step => settle s (step s)
  | .tickTimers => ((hostTick s).1, .tone (hostTick s).2)
  | .setKey k pressed => settle s (hostSetKey k pressed s)
  | .framebuffer => (s, .grid (hostFramebuffer s))

/-- The host's calls one after another in the order it chose (R327): the last state and the replies. -/
def runCalls : List HostCall → State → State × List Reply
  | [], s => (s, [])
  | c :: cs, s => ((runCalls cs (call c s).1).1, (call c s).2 :: (runCalls cs (call c s).1).2)

end Sys2Proof.Machine
end

