-- ==== Sys2Proof/Safety.lean ====
section
/-! DEFINITION. The terms claims are made in: what an operation may write and that it leaves the rest alone, the
invariants of a step and of a host call, and the relations that say which state a program cannot observe. -/

namespace Sys2Proof.Machine

/-! ### Frames (spec/40_engine.md R124) -/

/-- What an operation may write: named registers, byte addresses and call-stack slots, and whole components. The
keys are not listed, since no step writes them (R29). -/
structure Writes where
  regs : List RegIx := []
  bytes : List Nat := []
  slots : List Nat := []
  index : Bool := false
  pc : Bool := false
  sp : Bool := false
  dt : Bool := false
  st : Bool := false
  fb : Bool := false
  mode : Bool := false
  draws : Bool := false
deriving DecidableEq, Repr

/-- `t` is `s` except for what `w` lists: every other register, byte, slot and component is unchanged (R124). -/
structure Frame (w : Writes) (s t : State) : Prop where
  regs : ∀ r : RegIx, r ∉ w.regs → t.getV r = s.getV r
  bytes : ∀ a : Nat, a ∉ w.bytes → t.readByte a = s.readByte a
  slots : ∀ k : Fin Config.stackDepth, k.val ∉ w.slots → t.stack[k] = s.stack[k]
  index : w.index = false → t.i = s.i
  pc : w.pc = false → t.pc = s.pc
  sp : w.sp = false → t.sp = s.sp
  dt : w.dt = false → t.dt = s.dt
  st : w.st = false → t.st = s.st
  key : t.key = s.key
  fb : w.fb = false → t.fb = s.fb
  mode : w.mode = false → t.mode = s.mode
  draws : w.draws = false → t.rngDraws = s.rngDraws

/-! ### Keys and sprites, as the rules word them -/

/-- `k` is the lowest-indexed pressed key (R125, R262). -/
def IsLowestPressed (s : State) (k : KeyIx) : Prop := s.key[k] = true ∧ ∀ j : KeyIx, j < k → s.key[j] = false

/-- No key is pressed. -/
def NoKeyPressed (s : State) : Prop := ∀ k : KeyIx, s.key[k] = false

/-- A 1 bit of the sprite at I, drawn at (VX, VY) with `n` rows, falls on pixel `(px, py)`: the origin is reduced modulo
the screen, then every pixel again; rows move y only and columns x only (R241, R242). -/
def SpriteTouches (s : State) (x y : RegIx) (n : Nat) (px : Fin Config.screenW) (py : Fin Config.screenH) : Prop :=
  ∃ row col : Nat, row < n ∧ col < 8 ∧ (s.readByte (s.i.toNat + row)).getLsbD (7 - col) = true ∧
    px.val = ((s.getV x).toNat % 64 + col) % 64 ∧ py.val = ((s.getV y).toNat % 32 + row) % 32

/-! ### Invariants -/

/-- The greatest value any instruction puts into PC: BNNN with V0 = 0xFF and NNN = 0xFFF (R24, R151). -/
abbrev maxPc : Nat := 0x10FE

/-- What every step keeps: memory is in canonical form; PC stays at most `maxPc` (R24) and every return address is at
most `memSize`; and while waiting PC holds the address of the FX0A that entered the mode (R125). -/
structure StepInv (s : State) : Prop where
  memory : s.mem.wf
  pc : s.pc.toNat ≤ maxPc
  slots : ∀ k : Fin Config.stackDepth, s.stack[k].toNat ≤ Config.memSize
  waiting : ∀ x : RegIx, s.mode = .waitingForKey x → s.fetchWord = some (encode (.ldVxK x))

/-- What every host call keeps. It is `StepInv` less one fact: `load` may overwrite the FX0A a waiting machine stands on
(R323), so only the bounds of its PC remain. -/
structure CallInv (s : State) : Prop where
  memory : s.mem.wf
  pc : s.pc.toNat ≤ maxPc
  slots : ∀ k : Fin Config.stackDepth, s.stack[k].toNat ≤ Config.memSize
  waiting : ∀ x : RegIx, s.mode = .waitingForKey x → s.pc.toNat + 1 < Config.memSize

/-! ### What a program cannot observe -/

/-- Two outcomes are alike: both next states, related by `R`, or the same stop. -/
def OutcomesRelated (R : State → State → Prop) : Host.Outcome State Fault Refusal → Host.Outcome State Fault Refusal → Prop
  | .next s, .next t => R s t
  | .fault e, .fault f => e = f
  | .refused r, .refused q => r = q
  | _, _ => False

/-- The states differ at most in ST. -/
def SameButSound (s t : State) : Prop := t = { s with st := t.st }

/-- The states differ at most in call-stack slots at index SP or above. -/
def SameButFreeSlots (s t : State) : Prop :=
  t = { s with stack := t.stack } ∧ ∀ k : Fin Config.stackDepth, k.val < s.sp.val → t.stack[k] = s.stack[k]

/-- The machine states are equal: every component of R20. The states differ at most in the position in the input of random
bytes, which is the model's own (log 1). -/
def SameMachineState (s t : State) : Prop := s.toMachineState = t.toMachineState

/-- The step of this state would execute CXNN. -/
def RunsRandom (s : State) : Prop :=
  s.mode = .running ∧ ∃ w x nn, s.fetchWord = some w ∧ decodeWord w = .instr (.rnd x nn)

/-- A call that neither presses a key nor replaces memory or the whole state: a step, a tick or a look at the grid. -/
def IsIdleCall : HostCall → Bool
  | .step | .tickTimers | .framebuffer => true
  | .construct | .reset | .load _ | .setKey _ _ => false

end Sys2Proof.Machine
end

