-- ==== Sys2Proof/Certificates/Slice0/Obligations.lean ====
section
/-! DEFINITION. The statements for the provers, from the numbered rules of spec/. `s` is the state an instruction
executes on, after the fetch advance (R123), unless a statement says `step`. -/

open Sys2Proof Sys2Proof.Machine

/-! ### Encoding (spec/30_encoding.md) -/

/-- Encoding a well-formed instruction and decoding the word gives the instruction back, with every operand at every
value (R91 to R93). The Y field of 8XY6 and 8XYE is kept in the term: the model's choice, log 8. -/
def Obligations.DecodeOfEncode : Prop :=
  ∀ i : Instr, i.wellFormed = true → decodeWord (encode i) = .instr i

/-- A word that decodes is the encoding of the instruction it decodes to, and that instruction is well formed: decoding
drops no bit and no two words give one instruction term. For 8XY6 and 8XYE this rests on the model's choice to keep the
unused Y field in the term (log 8); there every Y is the same operation (R93, R178, R180). -/
def Obligations.EncodeOfDecode : Prop :=
  ∀ (w : Word) (i : Instr), decodeWord w = .instr i → encode i = w ∧ i.wellFormed = true

/-- The illegal words are exactly those the spec lists, family by family, and each decodes to `Unimplemented` carrying
itself (R94). -/
def Obligations.IllegalWordsExactly : Prop :=
  ∀ w : Word, decodeWord w = .unimplemented w ↔
    (w.toNat < 0x1000 ∧ w.toNat ≠ 0x000 ∧ w.toNat ≠ 0x0E0 ∧ w.toNat ≠ 0x0EE) ∨
    (w.toNat / 0x1000 = 0x5 ∧ w.toNat % 0x10 ≠ 0) ∨
    (w.toNat / 0x1000 = 0x8 ∧ w.toNat % 0x10 ∈ [0x8, 0x9, 0xA, 0xB, 0xC, 0xD, 0xF]) ∨
    (w.toNat / 0x1000 = 0x9 ∧ w.toNat % 0x10 ≠ 0) ∨
    (w.toNat / 0x1000 = 0xE ∧ w.toNat % 0x100 ∉ [0x9E, 0xA1]) ∨
    (w.toNat / 0x1000 = 0xF ∧ w.toNat % 0x100 ∉ [0x07, 0x0A, 0x15, 0x18, 0x1E, 0x29, 0x33, 0x55, 0x65])

/-- The decoder is the opcode map of R93: a word decodes to an instruction exactly when a row matches it
(`w & mask = match`), the row is that instruction's, and no two rows match one word. -/
def Obligations.DecoderFollowsOpcodeMap : Prop :=
  ∀ w : Word,
    (∀ i, decodeWord w = .instr i →
      ∃ row ∈ opcodeTable, row.covers w = true ∧ row.mnemonic = i.mnemonic) ∧
    ((∃ row ∈ opcodeTable, row.covers w = true) → ∃ i, decodeWord w = .instr i) ∧
    (∀ r1 ∈ opcodeTable, ∀ r2 ∈ opcodeTable, r1.covers w = true → r2.covers w = true → r1 = r2)

/-- Words written out from the encodings of the spec, one or more of each format, decode to the instructions they
stand for, and the byte decoder consumes exactly two bytes (R90, R93). -/
def Obligations.SampleWordsDecode : Prop :=
  decodeWord 0x00E0 = .instr .cls ∧ decodeWord 0x00EE = .instr .ret ∧
  decodeWord 0x2345 = .instr (.call 0x345) ∧ decodeWord 0x71FF = .instr (.addImm 1 0xFF) ∧
  decodeWord 0x8A75 = .instr (.subReg 10 7) ∧ decodeWord 0xD12F = .instr (.drw 1 2 15) ∧
  decodeWord 0xE5A1 = .instr (.sknp 5) ∧ decodeWord 0xF933 = .instr (.ldBVx 9) ∧
  decodeWord 0x5121 = .unimplemented 0x5121 ∧
  decodeBytes [0xA2, 0xF0, 0x12, 0x34] = .ok (.ldI 0x2F0, [0x12, 0x34])

/-! ### The step (spec/40_engine.md, spec/20_memory.md) -/

/-- The step transaction of R120: while waiting it is the poll; while running a failed fetch is OutOfBounds, an
illegal word is UnimplementedOpcode with that word, and a word that decodes to an instruction is that
instruction executed on the state whose PC has been advanced by 2. -/
def Obligations.StepRunsDecodedInstruction : Prop :=
  ∀ s : State,
    (∀ x, s.mode = .waitingForKey x → step s = keyWaitPoll x s) ∧
    (s.mode = .running → s.fetchWord = none → step s = .fault .outOfBounds) ∧
    (∀ w, s.mode = .running → s.fetchWord = some w → decodeWord w = .unimplemented w →
      step s = .fault (.unimplementedOpcode w)) ∧
    (∀ w i, s.mode = .running → s.fetchWord = some w → decodeWord w = .instr i →
      step s = exec i { s with pc := s.pc + 2 })

/-- Fetch reads the bytes at PC and PC + 1, most significant first, at any parity of PC, and fails exactly when one of
them is no valid address (R121 points 1 and 2; no alignment is the spec's decision D8, log 11). -/
def Obligations.FetchReadsTwoBytesBigEndian : Prop :=
  ∀ s : State,
    (s.pc.toNat + 1 < 4096 → ∃ w : Word, s.fetchWord = some w ∧
      w.toNat = (s.readByte s.pc.toNat).toNat * 256 + (s.readByte (s.pc.toNat + 1)).toNat) ∧
    (4096 ≤ s.pc.toNat + 1 → s.fetchWord = none)

/-- An instruction placed by `withFetchWord` is the one the very next step executes, from any state whose memory is in
canonical form (log 4; how a program is placed is the model's choice, log 5). -/
def Obligations.PlacedWordRunsNext : Prop :=
  ∀ (s : State) (w : Nat) (i : Instr), s.mem.wf → decodeTableWord 16 w = some i →
    step (s.withFetchWord 16 w) = exec i (s.withFetchWord 16 w).advance

/-- The instructions fail exactly where the rules say, with exactly that error: 2NNN on a full stack, 00EE on an empty
one, EX9E and EXA1 on a key index above 0xF, and the four I-relative instructions when an address they touch is
outside memory. No other instruction fails (R300, R127; the key error is the spec's decision D12, log 15). -/
def Obligations.InstructionsFailExactlyWhere : Prop :=
  ∀ (i : Instr) (s : State) (e : Fault), exec i s = .fault e ↔
    (∃ nnn, i = .call nnn ∧ s.sp.val = 16 ∧ e = .stackOverflow) ∨
    (i = .ret ∧ s.sp.val = 0 ∧ e = .stackUnderflow) ∨
    (∃ x, (i = .skp x ∨ i = .sknp x) ∧ 15 < (s.getV x).toNat ∧ e = .invalidKeyIndex (s.getV x).toNat) ∨
    (∃ x y n, i = .drw x y n ∧ 0 < n ∧ 4096 ≤ s.i.toNat + n - 1 ∧ e = .outOfBounds) ∨
    (∃ x, i = .ldBVx x ∧ 4096 ≤ s.i.toNat + 2 ∧ e = .outOfBounds) ∨
    (∃ x, (i = .ldMemVx x ∨ i = .ldVxMem x) ∧ 4096 ≤ s.i.toNat + x.val ∧ e = .outOfBounds)

/-- No step is ever refused by the model: every word either runs or returns an error of the spec. -/
def Obligations.StepIsNeverRefused : Prop := ∀ (s : State) (r : Refusal), step s ≠ .refused r

/-- Errors are precise and atomic: a step, load or set_key that raises an error returns that error to the host and the
state is the one before the call; no call that answers an error changes the state; and CXNN cannot fail (R301). -/
def Obligations.ErrorsLeaveTheState : Prop :=
  (∀ (s : State) (e : Fault), step s = .fault e → call .step s = (s, .error e)) ∧
  (∀ (bytes : List Byte) (s : State) (e : Fault), hostLoad bytes s = .fault e →
    call (.load bytes) s = (s, .error e)) ∧
  (∀ (k : Nat) (p : Bool) (s : State) (e : Fault), hostSetKey k p s = .fault e →
    call (.setKey k p) s = (s, .error e)) ∧
  (∀ (c : HostCall) (s : State) (e : Fault), (call c s).2 = .error e → (call c s).1 = s) ∧
  (∀ (x : RegIx) (nn : Byte) (s : State) (e : Fault), exec (.rnd x nn) s ≠ .fault e)

/-- No error latch: after a step that failed, a step again reports the same error and changes nothing (R304, from
the spec's decision D17). -/
def Obligations.FailedStepFailsAgain : Prop :=
  ∀ (s : State) (e : Fault) (n : Nat), (call .step s).2 = .error e →
    runCalls (List.replicate n .step) s = (s, List.replicate n (.error e))

/-! ### Control transfer (spec/41_control.md) -/

/-- NOP changes nothing, 1NNN sets PC to NNN and BNNN sets it to V0 + NNN, which never wraps (R141, R145, R151). -/
def Obligations.NopAndJumps : Prop :=
  ∀ (s : State) (nnn : Addr12),
    exec .nop s = .next s ∧
    (∃ t, exec (.jp nnn) s = .next t ∧ t.pc.toNat = nnn.toNat ∧ Frame { pc := true } s t) ∧
    (∃ t, exec (.jpV0 nnn) s = .next t ∧ t.pc.toNat = (s.getV 0).toNat + nnn.toNat ∧ Frame { pc := true } s t)

/-- The four skips: PC moves on by one more instruction width, modulo 2^16, exactly when the condition on the registers
holds, and nothing else changes (R147 to R150). -/
def Obligations.SkipsMovePcByTwoIfTheConditionHolds : Prop :=
  ∀ (s : State) (x y : RegIx) (nn : Byte),
    (∃ t, exec (.seImm x nn) s = .next t ∧ Frame { pc := true } s t ∧
      t.pc.toNat = if s.getV x = nn then (s.pc.toNat + 2) % 65536 else s.pc.toNat) ∧
    (∃ t, exec (.sneImm x nn) s = .next t ∧ Frame { pc := true } s t ∧
      t.pc.toNat = if s.getV x ≠ nn then (s.pc.toNat + 2) % 65536 else s.pc.toNat) ∧
    (∃ t, exec (.seReg x y) s = .next t ∧ Frame { pc := true } s t ∧
      t.pc.toNat = if s.getV x = s.getV y then (s.pc.toNat + 2) % 65536 else s.pc.toNat) ∧
    (∃ t, exec (.sneReg x y) s = .next t ∧ Frame { pc := true } s t ∧
      t.pc.toNat = if s.getV x ≠ s.getV y then (s.pc.toNat + 2) % 65536 else s.pc.toNat)

/-- A whole step over a skip at address p leaves PC at p + 4 when the condition holds and at p + 2 when it does not
(spec/95_test_vectors.md S14; R140). -/
def Obligations.StepOverSkipAdvancesByFourOrTwo : Prop :=
  ∀ (s : State) (x y : RegIx) (nn : Byte) (i : Instr) (c : Prop),
    (i = .seImm x nn ∧ (c ↔ s.getV x = nn)) ∨ (i = .sneImm x nn ∧ (c ↔ s.getV x ≠ nn)) ∨
      (i = .seReg x y ∧ (c ↔ s.getV x = s.getV y)) ∨ (i = .sneReg x y ∧ (c ↔ s.getV x ≠ s.getV y)) →
    s.mode = .running → s.fetchWord = some (encode i) →
    ∃ t, step s = .next t ∧ (c → t.pc.toNat = s.pc.toNat + 4) ∧ (¬c → t.pc.toNat = s.pc.toNat + 2) ∧
      Frame { pc := true } s t

/-- 2NNN: with room on the stack, the post-fetch PC goes into slot SP, SP counts one entry more and PC becomes NNN; on a
full stack the error is StackOverflow (R146, R143; the slot order is the spec's decision D22, log 21). -/
def Obligations.CallPushesReturnAddress : Prop :=
  ∀ (s : State) (nnn : Addr12),
    (∀ h : s.sp.val < 16, ∃ t, exec (.call nnn) s = .next t ∧ t.stack[s.sp.val] = s.pc ∧
      t.sp.val = s.sp.val + 1 ∧ t.pc.toNat = nnn.toNat ∧
      Frame { pc := true, sp := true, slots := [s.sp.val] } s t) ∧
    (s.sp.val = 16 → exec (.call nnn) s = .fault .stackOverflow)

/-- 00EE: with an entry on the stack, SP counts one entry less, PC becomes the content of that slot and every slot keeps
its content; on an empty stack the error is StackUnderflow (R142, R144; that the slot keeps its content is the
spec's decision D22, log 21). -/
def Obligations.ReturnPopsReturnAddress : Prop :=
  ∀ s : State,
    (∀ (n : Nat) (h : n < 16), s.sp.val = n + 1 → ∃ t, exec .ret s = .next t ∧ t.pc = s.stack[n] ∧
      t.sp.val = n ∧ Frame { pc := true, sp := true } s t) ∧
    (s.sp.val = 0 → exec .ret s = .fault .stackUnderflow)

/-- Call and return match: a return executed in any state whose stack is the one the call left comes back to the address
after the call, with the caller's depth of stack (R142, R146, LIFO of R26). -/
def Obligations.ReturnComesBackAfterCall : Prop :=
  ∀ (s t u : State) (nnn : Addr12), exec (.call nnn) s = .next t → u.stack = t.stack → u.sp = t.sp →
    ∃ v, exec .ret u = .next v ∧ v.pc = s.pc ∧ v.sp = s.sp ∧
      ∀ k : Fin 16, k.val < s.sp.val → v.stack[k] = s.stack[k]

/-! ### Registers and ALU (spec/42_alu.md) -/

/-- 6XNN, 8XY0, 8XY1, 8XY2 and 8XY3 write their result into VX and nothing else: no flag, and VF only where X = F
(R170, R172 to R175). -/
def Obligations.LoadsAndLogicWriteVxOnly : Prop :=
  ∀ (s : State) (x y : RegIx) (nn : Byte),
    (∃ t, exec (.ldImm x nn) s = .next t ∧ t.getV x = nn ∧ Frame { regs := [x] } s t) ∧
    (∃ t, exec (.ldReg x y) s = .next t ∧ t.getV x = s.getV y ∧ Frame { regs := [x] } s t) ∧
    (∃ t, exec (.orReg x y) s = .next t ∧ t.getV x = s.getV x ||| s.getV y ∧ Frame { regs := [x] } s t) ∧
    (∃ t, exec (.andReg x y) s = .next t ∧ t.getV x = s.getV x &&& s.getV y ∧ Frame { regs := [x] } s t) ∧
    (∃ t, exec (.xorReg x y) s = .next t ∧ t.getV x = s.getV x ^^^ s.getV y ∧ Frame { regs := [x] } s t)

/-- 7XNN writes the sum modulo 256 into VX and nothing else: VF is unchanged unless X = F, where it holds the sum
(R171). -/
def Obligations.AddImmediateSetsNoFlag : Prop :=
  ∀ (s : State) (x : RegIx) (nn : Byte), ∃ t, exec (.addImm x nn) s = .next t ∧
    (t.getV x).toNat = ((s.getV x).toNat + nn.toNat) % 256 ∧ Frame { regs := [x] } s t

/-- 8XY4: VX is the sum modulo 256 and VF the carry; for X = F the flag wins (R176; the write order is the spec's
decision D10, log 13). -/
def Obligations.AddRegisterSetsCarry : Prop :=
  ∀ (s : State) (x y : RegIx), ∃ t, exec (.addReg x y) s = .next t ∧
    (x ≠ 15 → (t.getV x).toNat = ((s.getV x).toNat + (s.getV y).toNat) % 256) ∧
    (t.getV 15).toNat = (if (s.getV x).toNat + (s.getV y).toNat > 255 then 1 else 0) ∧
    Frame { regs := [x, 15] } s t

/-- 8XY5 and 8XY7: VX is the integer difference reduced into 0..255 and VF is 1 exactly when the minuend is at least
the subtrahend; for X = F the flag wins (R177, R179; the write order is the spec's decision D10, log 13). -/
def Obligations.SubtractionsSetNoBorrow : Prop :=
  ∀ (s : State) (x y : RegIx),
    (∃ t, exec (.subReg x y) s = .next t ∧
      (x ≠ 15 → ((t.getV x).toNat : Int) = (((s.getV x).toNat : Int) - (s.getV y).toNat) % 256) ∧
      (t.getV 15).toNat = (if (s.getV x).toNat ≥ (s.getV y).toNat then 1 else 0) ∧
      Frame { regs := [x, 15] } s t) ∧
    (∃ t, exec (.subnReg x y) s = .next t ∧
      (x ≠ 15 → ((t.getV x).toNat : Int) = (((s.getV y).toNat : Int) - (s.getV x).toNat) % 256) ∧
      (t.getV 15).toNat = (if (s.getV y).toNat ≥ (s.getV x).toNat then 1 else 0) ∧
      Frame { regs := [x, 15] } s t)

/-- 8XY6 and 8XYE: VX is half, or twice modulo 256, of its old value, VF is the bit shifted out (old bit 0, old bit 7),
and Y plays no part; for X = F the flag wins (R178, R180; the write order is the spec's decision D10, log 13). -/
def Obligations.ShiftsMoveBitOutToFlag : Prop :=
  ∀ (s : State) (x y : RegIx),
    (∃ t, exec (.shr x y) s = .next t ∧
      (x ≠ 15 → (t.getV x).toNat = (s.getV x).toNat / 2) ∧ (t.getV 15).toNat = (s.getV x).toNat % 2 ∧
      Frame { regs := [x, 15] } s t) ∧
    (∃ t, exec (.shl x y) s = .next t ∧
      (x ≠ 15 → (t.getV x).toNat = (s.getV x).toNat * 2 % 256) ∧ (t.getV 15).toNat = (s.getV x).toNat / 128 ∧
      Frame { regs := [x, 15] } s t) ∧
    (∀ z : RegIx, exec (.shr x z) s = exec (.shr x y) s ∧ exec (.shl x z) s = exec (.shl x y) s)

/-- CXNN draws exactly one byte, whatever NN, and VX is that byte AND NN, so it never exceeds NN. The byte is a free
value (log 1), and the statement holds whatever the draw counter is. -/
def Obligations.RandomDrawsOneByteAndMasks : Prop :=
  ∀ (s : State) (x : RegIx) (nn : Byte), ∃ t, exec (.rnd x nn) s = .next t ∧
    t.getV x = Config.rngByte s.rngDraws &&& nn ∧ (t.getV x).toNat ≤ nn.toNat ∧
    t.rngDraws = s.rngDraws + 1 ∧ Frame { regs := [x], draws := true } s t

/-! ### Index register and memory (spec/43_index_memory.md) -/

/-- ANNN, FX1E and FX29 write I: NNN, I + VX modulo 65536, and 5 times the full byte VX; nothing else changes, VF
included (R210 to R212). -/
def Obligations.IndexRegisterWrites : Prop :=
  ∀ (s : State) (x : RegIx) (nnn : Addr12),
    (∃ t, exec (.ldI nnn) s = .next t ∧ t.i.toNat = nnn.toNat ∧ Frame { index := true } s t) ∧
    (∃ t, exec (.addIVx x) s = .next t ∧ t.i.toNat = (s.i.toNat + (s.getV x).toNat) % 65536 ∧
      Frame { index := true } s t) ∧
    (∃ t, exec (.ldFVx x) s = .next t ∧ t.i.toNat = (s.getV x).toNat * 5 ∧ Frame { index := true } s t)

/-- FX33, on memory in canonical form (log 4; an invariant, `StepKeepsInvariant`): when I, I + 1 and I + 2 are valid
addresses, they receive the hundreds, tens and ones of VX and nothing else changes, I included; otherwise the error is OutOfBounds
(R213). -/
def Obligations.BcdStoresDecimalDigits : Prop :=
  ∀ (s : State) (x : RegIx), s.mem.wf →
    (s.i.toNat + 2 < 4096 → ∃ t, exec (.ldBVx x) s = .next t ∧
      (t.readByte (iAddr s 0)).toNat = (s.getV x).toNat / 100 ∧
      (t.readByte (iAddr s 1)).toNat = (s.getV x).toNat / 10 % 10 ∧
      (t.readByte (iAddr s 2)).toNat = (s.getV x).toNat % 10 ∧
      Frame { bytes := iAddrs s 3 } s t) ∧
    (4096 ≤ s.i.toNat + 2 → exec (.ldBVx x) s = .fault .outOfBounds)

/-- FX55, on memory in canonical form (log 4; an invariant, `StepKeepsInvariant`): when I .. I + X are valid addresses, they
receive V0 .. VX in order and nothing else changes, I included; otherwise the error is OutOfBounds (R214). -/
def Obligations.StoreRegistersToMemory : Prop :=
  ∀ (s : State) (x : RegIx), s.mem.wf →
    (s.i.toNat + x.val < 4096 → ∃ t, exec (.ldMemVx x) s = .next t ∧
      (∀ k : RegIx, k ≤ x → t.readByte (iAddr s k.val) = s.getV k) ∧
      Frame { bytes := iAddrs s (x.val + 1) } s t) ∧
    (4096 ≤ s.i.toNat + x.val → exec (.ldMemVx x) s = .fault .outOfBounds)

/-- FX65: when I .. I + X are valid addresses, V0 .. VX receive their bytes in order and nothing else changes, I
included; otherwise the error is OutOfBounds (R215). -/
def Obligations.LoadRegistersFromMemory : Prop :=
  ∀ (s : State) (x : RegIx),
    (s.i.toNat + x.val < 4096 → ∃ t, exec (.ldVxMem x) s = .next t ∧
      (∀ k : RegIx, k ≤ x → t.getV k = s.readByte (iAddr s k.val)) ∧
      Frame { regs := (List.finRange 16).filter (fun k => k ≤ x) } s t) ∧
    (4096 ≤ s.i.toNat + x.val → exec (.ldVxMem x) s = .fault .outOfBounds)

/-- What FX55 stored, FX65 with the same X reads back: executed in any state with that memory and I, it restores
V0 .. VX and leaves the other registers (R214, R215, R70; memory in canonical form, log 4, an invariant). -/
def Obligations.StoreThenLoadRestoresRegisters : Prop :=
  ∀ (s t u : State) (x : RegIx), s.mem.wf → exec (.ldMemVx x) s = .next t → u.mem = t.mem → u.i = s.i →
    ∃ v, exec (.ldVxMem x) u = .next v ∧ ∀ k : RegIx, (k ≤ x → v.getV k = s.getV k) ∧ (x < k → v.getV k = u.getV k)

/-- A store is seen by the very next fetch: an FX55 with X at least 1 that writes over the word after itself makes that
word V0 V1 (R72, self-modifying code; memory in canonical form, log 4, an invariant). -/
def Obligations.StoreIsSeenByTheNextFetch : Prop :=
  ∀ (s t : State) (x : RegIx), s.mem.wf → s.mode = .running → s.fetchWord = some (encode (.ldMemVx x)) → 1 ≤ x.val →
    s.i.toNat = s.pc.toNat + 2 → step s = .next t →
    t.fetchWord = some (wordOfBytes (s.getV 0) (s.getV 1))

/-- Equal memories are equal data: two memories in canonical form that read the same at every valid address are the same
list (the representation is the model's choice, log 4). -/
def Obligations.MemoryFormIsCanonical : Prop :=
  ∀ m m' : Memory, m.wf → m'.wf → (∀ a, a < 4096 → m.read a = m'.read a) → m = m'

/-! ### Display (spec/44_display.md) -/

/-- 00E0 makes every pixel false and changes nothing else, VF included (R240). -/
def Obligations.ClearScreen : Prop :=
  ∀ s : State, ∃ t, exec .cls s = .next t ∧ (∀ x y, t.pixel x y = false) ∧ Frame { fb := true } s t

/-- DXYN: when its rows are valid addresses, exactly the pixels that a 1 bit of the sprite falls on are inverted, with
wraparound at both edges; VF is 1 if one of them was set and 0 otherwise; nothing else changes. When a row address is
outside memory the error is OutOfBounds (R241 to R243; N = 0 draws nothing and gives VF = 0 by the spec's decision
D15, log 17). -/
def Obligations.DrawInvertsSpritePixels : Prop :=
  ∀ (s : State) (x y : RegIx) (n : Nat), n < 16 →
    (n = 0 ∨ s.i.toNat + n - 1 < 4096 → ∃ t, exec (.drw x y n) s = .next t ∧
      (∀ px py, t.pixel px py ≠ s.pixel px py ↔ SpriteTouches s x y n px py) ∧
      ((∃ px py, SpriteTouches s x y n px py ∧ s.pixel px py = true) → t.getV 15 = 1) ∧
      ((¬∃ px py, SpriteTouches s x y n px py ∧ s.pixel px py = true) → t.getV 15 = 0) ∧
      Frame { regs := [15], fb := true } s t) ∧
    (0 < n → 4096 ≤ s.i.toNat + n - 1 → exec (.drw x y n) s = .fault .outOfBounds)

/-- Drawing the same sprite again at the same origin restores the framebuffer, and VF then says whether the first draw
had set a pixel (spec/95_test_vectors.md S11, R241, R243). -/
def Obligations.DrawingTwiceRestoresScreen : Prop :=
  ∀ (s t : State) (x y : RegIx) (n : Nat), n < 16 → exec (.drw x y n) s = .next t →
    t.getV x = s.getV x → t.getV y = s.getV y →
    ∃ u, exec (.drw x y n) t = .next u ∧ u.fb = s.fb ∧
      (u.getV 15 = 1 ↔ ∃ px py, SpriteTouches s x y n px py ∧ s.pixel px py = false)

/-- The linear grid combines x and y using the screen's width: pixel (x, y) is at index y * 64 + x (R30, R242). -/
def Obligations.LinearIndexUsesTheWidth : Prop :=
  ∀ s : State, (linearFb (hostFramebuffer s)).length = 2048 ∧
    ∀ (x : Fin 64) (y : Fin 32), (linearFb (hostFramebuffer s))[y.val * 64 + x.val]? = some (s.pixel x y)

/-! ### Keys and timers (spec/45_keys_timers.md, spec/60_exceptions.md) -/

/-- EX9E and EXA1: for VX up to 15 they skip when key VX is, or is not, pressed and change nothing else; above 15 the
error is InvalidKeyIndex carrying VX (R260, R261; the error is the spec's decision D12, log 15). -/
def Obligations.KeySkipsTestTheLevel : Prop :=
  ∀ (s : State) (x : RegIx),
    (∀ h : (s.getV x).toNat < 16,
      (∃ t, exec (.skp x) s = .next t ∧ Frame { pc := true } s t ∧
        t.pc = if s.key[(s.getV x).toNat] = true then s.pc + 2 else s.pc) ∧
      (∃ t, exec (.sknp x) s = .next t ∧ Frame { pc := true } s t ∧
        t.pc = if s.key[(s.getV x).toNat] = true then s.pc else s.pc + 2)) ∧
    (15 < (s.getV x).toNat →
      exec (.skp x) s = .fault (.invalidKeyIndex (s.getV x).toNat) ∧
      exec (.sknp x) s = .fault (.invalidKeyIndex (s.getV x).toNat))

/-- FX0A: with a key pressed VX is the least pressed key and PC stays after the instruction; with none pressed PC goes
back to the instruction and the mode becomes WaitingForKey(X) (R262). -/
def Obligations.KeyWaitTakesLowestKeyOrWaits : Prop :=
  ∀ (s : State) (x : RegIx),
    (∀ k, IsLowestPressed s k → ∃ t, exec (.ldVxK x) s = .next t ∧ (t.getV x).toNat = k.val ∧
      Frame { regs := [x] } s t) ∧
    (NoKeyPressed s → ∃ t, exec (.ldVxK x) s = .next t ∧ t.pc = s.pc - 2 ∧ t.mode = .waitingForKey x ∧
      Frame { pc := true, mode := true } s t)

/-- The poll of a waiting machine: with a key pressed VX is the least pressed key, PC moves on by 2 and the mode is
Running; with none pressed the step changes nothing (R125; the mode is the spec's decision D11, log 14). -/
def Obligations.PollTakesLowestKeyOrKeepsWaiting : Prop :=
  ∀ (s : State) (x : RegIx), s.mode = .waitingForKey x →
    (∀ k, IsLowestPressed s k → ∃ t, step s = .next t ∧ (t.getV x).toNat = k.val ∧ t.pc = s.pc + 2 ∧
      t.mode = .running ∧ Frame { regs := [x], pc := true, mode := true } s t) ∧
    (NoKeyPressed s → step s = .next s)

/-- The explicit mode and the busy-poll agree: where PC stands on the FX0A that entered the mode, a step of the waiting
machine is what re-executing that FX0A in mode Running would be (R125, spec/90_conflicts.md C7; log 14). -/
def Obligations.PollEqualsReexecution : Prop :=
  ∀ (s : State) (x : RegIx), s.mode = .waitingForKey x → s.fetchWord = some (encode (.ldVxK x)) →
    step s = step { s with mode := .running }

/-- A wait lasts: with no key pressed, any sequence of steps, ticks and looks at the grid leaves a waiting machine as it
is, but for the timers (R125, R312, spec/95_test_vectors.md S12; log 14). -/
def Obligations.WaitLastsUntilAKeyIsPressed : Prop :=
  ∀ (s : State) (x : RegIx) (cs : List HostCall), s.mode = .waitingForKey x → NoKeyPressed s →
    (∀ c ∈ cs, IsIdleCall c = true) →
    (runCalls cs s).1 = { s with dt := (runCalls cs s).1.dt, st := (runCalls cs s).1.st }

/-- FX07, FX15 and FX18: VX becomes DT, DT becomes VX, ST becomes VX, and nothing else changes (R263 to R265). -/
def Obligations.TimerAccess : Prop :=
  ∀ (s : State) (x : RegIx),
    (∃ t, exec (.ldVxDt x) s = .next t ∧ t.getV x = s.dt ∧ Frame { regs := [x] } s t) ∧
    (∃ t, exec (.ldDtVx x) s = .next t ∧ t.dt = s.getV x ∧ Frame { dt := true } s t) ∧
    (∃ t, exec (.ldStVx x) s = .next t ∧ t.st = s.getV x ∧ Frame { st := true } s t)

/-- A tick decrements DT if it is above 0 (R310). -/
def Obligations.TickDecrementsDelayTimer : Prop :=
  ∀ s : State, (hostTick s).1.dt.toNat = if s.dt.toNat > 0 then s.dt.toNat - 1 else 0

/-- A tick decrements ST if it is above 0 and reports the tone edge exactly when ST was 1; in either mode it changes
only DT and ST (R311, R312; the edge as defined is the spec's decision D20, log 19). -/
def Obligations.TickReportsToneEdge : Prop :=
  ∀ s : State,
    (hostTick s).1.st.toNat = (if s.st.toNat > 0 then s.st.toNat - 1 else 0) ∧
    ((hostTick s).2 = true ↔ s.st.toNat = 1) ∧
    Frame { dt := true, st := true } s (hostTick s).1

/-- A tick takes effect on no instruction but FX07, FX15 and FX18: ticking before or after any other instruction gives
the same outcome (R312, R346). -/
def Obligations.TickCommutesWithOtherInstructions : Prop :=
  ∀ (i : Instr) (s : State), (∀ x, i ≠ .ldVxDt x ∧ i ≠ .ldDtVx x ∧ i ≠ .ldStVx x) →
    OutcomesRelated (fun t u => u = (hostTick t).1) (exec i s) (exec i (hostTick s).1)

/-! ### The host interface and reset (spec/60_exceptions.md, spec/70_reset_and_hazards.md) -/

/-- The initial state, as construct() and reset() give it from any state: one and the same machine state, with the font
and zeros in memory, every register, slot and timer zero, PC at 0x200, no key pressed, no pixel set, Running (R340, R341; keys, pixels and mode by the
spec's own inference, log 22; the origin by its decision D2, log 3). -/
def Obligations.ResetGivesInitialState : Prop :=
  ∀ s t : State, t = State.reset ∨ t = hostReset s ∨ t = hostConstruct s →
    t.toMachineState = MachineState.initial ∧
    (∀ a, a < 80 → Config.font[a]? = some (t.readByte a)) ∧
    (∀ a, 80 ≤ a → a < 4096 → t.readByte a = 0) ∧
    (∀ x, t.getV x = 0) ∧ t.i = 0 ∧ t.pc = 0x200 ∧ t.sp.val = 0 ∧ (∀ k : Fin 16, t.stack[k] = 0) ∧
    t.dt = 0 ∧ t.st = 0 ∧ NoKeyPressed t ∧ (∀ px py, t.pixel px py = false) ∧ t.mode = .running

/-- The font in memory after reset, glyph n at address 5n, row by row as the spec tabulates it (R66; the bytes are the
spec's decision D5, log 3). -/
def Obligations.FontGlyphsAtReset : Prop :=
  (List.range 16).map (fun n => (List.range 5).map (fun k => (State.reset.readByte (5 * n + k)).toNat)) =
    [[0xF0, 0x90, 0x90, 0x90, 0xF0], [0x20, 0x60, 0x20, 0x20, 0x70], [0xF0, 0x10, 0xF0, 0x80, 0xF0]] ++
    [[0xF0, 0x10, 0xF0, 0x10, 0xF0], [0x90, 0x90, 0xF0, 0x10, 0x10], [0xF0, 0x80, 0xF0, 0x10, 0xF0]] ++
    [[0xF0, 0x80, 0xF0, 0x90, 0xF0], [0xF0, 0x10, 0x20, 0x40, 0x40], [0xF0, 0x90, 0xF0, 0x90, 0xF0]] ++
    [[0xF0, 0x90, 0xF0, 0x10, 0xF0], [0xF0, 0x90, 0xF0, 0x90, 0x90], [0xE0, 0x90, 0xE0, 0x90, 0xE0]] ++
    [[0xF0, 0x80, 0x80, 0x80, 0xF0], [0xE0, 0x90, 0x90, 0x90, 0xE0], [0xF0, 0x80, 0xF0, 0x80, 0xF0]] ++
    [[0xF0, 0x80, 0xF0, 0x80, 0x80]]

/-- load, on memory in canonical form (log 4; an invariant, `EveryScheduleKeepsInvariant`): an image of at most 4096 - 0x200
bytes stands byte for byte from the origin on and nothing else changes, PC included; a longer one is LoadTooLarge
(R323; that PC stays is the spec's decision D24, log 23). -/
def Obligations.LoadPlacesImageAtOrigin : Prop :=
  ∀ (s : State) (bytes : List Byte), s.mem.wf →
    (bytes.length ≤ 3584 → ∃ t, hostLoad bytes s = .next t ∧
      (∀ j b, bytes[j]? = some b → t.readByte (0x200 + j) = b) ∧
      Frame { bytes := (List.range bytes.length).map (fun j => 0x200 + j) } s t) ∧
    (3584 < bytes.length → hostLoad bytes s = .fault .loadTooLarge)

/-- set_key changes key k alone, for k up to 15; above, the error is InvalidKeyIndex carrying k (R322; the error is
the spec's decision D13, log 15). -/
def Obligations.SetKeyChangesOneKey : Prop :=
  ∀ (s : State) (k : Nat) (p : Bool),
    (∀ h : k < 16, ∃ t, hostSetKey k p s = .next t ∧ t.key[k] = p ∧
      (∀ j : KeyIx, j.val ≠ k → t.key[j] = s.key[j]) ∧ t = { s with key := t.key }) ∧
    (15 < k → hostSetKey k p s = .fault (.invalidKeyIndex k))

/-- framebuffer() returns the pixel grid and changes nothing (R325). -/
def Obligations.FramebufferIsReadOnly : Prop :=
  ∀ s : State, (call .framebuffer s).1 = s ∧
    ∃ f : Framebuffer, (call .framebuffer s).2 = .grid f ∧ ∀ x y, f[y][x] = s.pixel x y

/-! ### Invariants -/

/-- The state after reset meets the invariant of a step and the invariant of a host call (R24, R26, R340). Their memory
clause, the canonical form, is the model's choice (log 4). -/
def Obligations.ResetMeetsInvariants : Prop := StepInv State.reset ∧ CallInv State.reset

/-- Every step keeps the invariant: memory in canonical form, PC at most 0x10FE, return addresses at most 4096, and a
waiting machine's PC on its FX0A (R24, R125; the memory form is the model's, log 4). -/
def Obligations.StepKeepsInvariant : Prop := ∀ s t : State, StepInv s → step s = .next t → StepInv t

/-- Every sequence of host calls keeps the invariant of a host call, from any state that meets it (R327: a claim holds
for every schedule). Its memory clause, the canonical form, is the model's choice (log 4); that the state after reset meets
the invariant is `ResetMeetsInvariants`. -/
def Obligations.EveryScheduleKeepsInvariant : Prop :=
  ∀ (cs : List HostCall) (s : State), CallInv s → CallInv (runCalls cs s).1

/-! ### The whole machine -/

/-- Who changes what, over all instructions: the screen only 00E0 and DXYN; DT only FX15; ST only FX18; SP and the stack
only 2NNN and 00EE; I only ANNN, FX1E and FX29; memory only FX33 and FX55; the mode only FX0A; the keys none; the
count of drawn random bytes only CXNN (R124, R22 to R32). That count is the model's own field (log 1); that 00EE leaves
the stack's slots as they are is the spec's decision D22 (log 21). -/
def Obligations.OnlyNamedInstructionsChangeComponents : Prop :=
  ∀ (i : Instr) (s t : State), exec i s = .next t →
    (t.fb ≠ s.fb → i = .cls ∨ ∃ x y n, i = .drw x y n) ∧
    (t.dt ≠ s.dt → ∃ x, i = .ldDtVx x) ∧
    (t.st ≠ s.st → ∃ x, i = .ldStVx x) ∧
    (t.sp ≠ s.sp → i = .ret ∨ ∃ nnn, i = .call nnn) ∧
    (t.stack ≠ s.stack → ∃ nnn, i = .call nnn) ∧
    (t.i ≠ s.i → (∃ nnn, i = .ldI nnn) ∨ (∃ x, i = .addIVx x) ∨ ∃ x, i = .ldFVx x) ∧
    (t.mem ≠ s.mem → (∃ x, i = .ldBVx x) ∨ ∃ x, i = .ldMemVx x) ∧
    (t.mode ≠ s.mode → ∃ x, i = .ldVxK x) ∧
    (t.rngDraws ≠ s.rngDraws → ∃ x nn, i = .rnd x nn) ∧
    t.key = s.key

/-- VF changes only by the six flag instructions, by an instruction whose X is F and which writes VX, or by FX65 with
X = F (R22). -/
def Obligations.FlagRegisterChangesOnlyByNamedInstructions : Prop :=
  ∀ (i : Instr) (s t : State), exec i s = .next t → t.getV 15 ≠ s.getV 15 →
    (∃ x y, i = .addReg x y ∨ i = .subReg x y ∨ i = .shr x y ∨ i = .subnReg x y ∨ i = .shl x y) ∨
    (∃ x y n, i = .drw x y n) ∨
    (∃ nn, i = .ldImm 15 nn ∨ i = .addImm 15 nn ∨ i = .rnd 15 nn) ∨
    (∃ y, i = .ldReg 15 y ∨ i = .orReg 15 y ∨ i = .andReg 15 y ∨ i = .xorReg 15 y) ∨
    i = .ldVxDt 15 ∨ i = .ldVxK 15 ∨ i = .ldVxMem 15

/-- No instruction reads ST: steps of two states that differ at most in ST have outcomes that differ at most in ST
(R28). -/
def Obligations.SoundTimerIsUnobservable : Prop :=
  ∀ s t : State, SameButSound s t → OutcomesRelated SameButSound (step s) (step t)

/-- No instruction reads a stack slot at index SP or above: steps of two states that differ at most in such slots have
outcomes that differ at most in such slots (R26). -/
def Obligations.FreeStackSlotsAreUnobservable : Prop :=
  ∀ s t : State, SameButFreeSlots s t → OutcomesRelated SameButFreeSlots (step s) (step t)

/-- Apart from the random byte of CXNN, the step is a function of the machine state: steps from equal machine states, given
equal random bytes where CXNN executes, give equal outcomes (R128). That the byte is taken at the model's count of drawn
bytes is log 1. -/
def Obligations.RandomnessEntersOnlyThroughCxnn : Prop :=
  ∀ s t : State, SameMachineState s t →
    (RunsRandom s → Config.rngByte s.rngDraws = Config.rngByte t.rngDraws) →
    OutcomesRelated SameMachineState (step s) (step t)
end

