-- ==== Sys2Proof/Laws/Decode.lean ====
section
/-! SUPPORT. The fields of a word as numbers, and the fields of the words that the encoder's formats build. -/

namespace Sys2Proof

theorem nibble1_toNat (w : Word) : (nibble1 w).toNat = w.toNat / 4096 := by
  simp only [nibble1, BitVec.extractLsb'_toNat, Nat.shiftRight_eq_div_pow]; omega

theorem nibble4_toNat (w : Word) : (nibble4 w).toNat = w.toNat % 16 := by
  simp only [nibble4, BitVec.extractLsb'_toNat, Nat.shiftRight_eq_div_pow]; omega

theorem fieldX_val (w : Word) : (fieldX w).val = w.toNat / 256 % 16 := by
  simp [fieldX, Nat.shiftRight_eq_div_pow]

theorem fieldY_val (w : Word) : (fieldY w).val = w.toNat / 16 % 16 := by
  simp [fieldY, Nat.shiftRight_eq_div_pow]

theorem fieldN_eq (w : Word) : fieldN w = w.toNat % 16 := nibble4_toNat w

theorem fieldNN_toNat (w : Word) : (fieldNN w).toNat = w.toNat % 256 := by
  simp only [fieldNN, BitVec.extractLsb'_toNat, Nat.shiftRight_eq_div_pow]; omega

theorem fieldNNN_toNat (w : Word) : (fieldNNN w).toNat = w.toNat % 4096 := by
  simp only [fieldNNN, BitVec.extractLsb'_toNat, Nat.shiftRight_eq_div_pow]; omega

theorem toNat_append_eq {m n : Nat} (a : BitVec m) (b : BitVec n) : (a ++ b).toNat = a.toNat * 2 ^ n + b.toNat := by
  rw [BitVec.toNat_append, Nat.shiftLeft_eq, Nat.mul_comm, Nat.two_pow_add_eq_or_of_lt b.isLt]

theorem wordOfBytes_toNat (hi lo : Byte) : (wordOfBytes hi lo).toNat = hi.toNat * 256 + lo.toNat := toNat_append_eq hi lo

theorem highByte_toNat (w : Word) : (highByte w).toNat = w.toNat / 256 := by
  simp only [highByte, BitVec.extractLsb'_toNat, Nat.shiftRight_eq_div_pow]; omega

theorem lowByte_toNat (w : Word) : (lowByte w).toNat = w.toNat % 256 := by
  simp only [lowByte, BitVec.extractLsb'_toNat, Nat.shiftRight_eq_div_pow]; omega

/-- A word split into its two bytes and put together again is the word (R63). -/
@[simp] theorem wordOfBytes_high_low (w : Word) : wordOfBytes (highByte w) (lowByte w) = w := by
  apply BitVec.eq_of_toNat_eq
  rw [wordOfBytes_toNat, highByte_toNat, lowByte_toNat]; omega

@[simp] theorem regNibble_toNat (x : RegIx) : (regNibble x).toNat = x.val := rfl

theorem encodeFA_toNat (op : Nibble) (nnn : Addr12) : (encodeFA op nnn).toNat = op.toNat * 4096 + nnn.toNat :=
  toNat_append_eq op nnn

theorem encodeFI_toNat (op : Nibble) (x : RegIx) (nn : Byte) :
    (encodeFI op x nn).toNat = op.toNat * 4096 + x.val * 256 + nn.toNat := by
  have h : (encodeFI op x nn).toNat = (op.toNat * 2 ^ 4 + (regNibble x).toNat) * 2 ^ 8 + nn.toNat := by
    rw [← toNat_append_eq op, ← toNat_append_eq]; rfl
  rw [h, regNibble_toNat]; omega

theorem encodeFR_toNat (op : Nibble) (x y : RegIx) (fn : Nibble) :
    (encodeFR op x y fn).toNat = op.toNat * 4096 + x.val * 256 + y.val * 16 + fn.toNat := by
  have h : (encodeFR op x y fn).toNat =
      ((op.toNat * 2 ^ 4 + (regNibble x).toNat) * 2 ^ 4 + (regNibble y).toNat) * 2 ^ 4 + fn.toNat := by
    rw [← toNat_append_eq op, ← toNat_append_eq, ← toNat_append_eq]; rfl
  rw [h, regNibble_toNat, regNibble_toNat]; omega

@[simp] theorem nibble1_encodeFA (op : Nibble) (nnn : Addr12) : nibble1 (encodeFA op nnn) = op := by
  apply BitVec.eq_of_toNat_eq; rw [nibble1_toNat, encodeFA_toNat]; omega

@[simp] theorem fieldNNN_encodeFA (op : Nibble) (nnn : Addr12) : fieldNNN (encodeFA op nnn) = nnn := by
  apply BitVec.eq_of_toNat_eq; rw [fieldNNN_toNat, encodeFA_toNat]; omega

@[simp] theorem nibble1_encodeFI (op : Nibble) (x : RegIx) (nn : Byte) : nibble1 (encodeFI op x nn) = op := by
  apply BitVec.eq_of_toNat_eq; rw [nibble1_toNat, encodeFI_toNat]; omega

@[simp] theorem fieldX_encodeFI (op : Nibble) (x : RegIx) (nn : Byte) : fieldX (encodeFI op x nn) = x := by
  apply Fin.ext; rw [fieldX_val, encodeFI_toNat]; omega

@[simp] theorem fieldNN_encodeFI (op : Nibble) (x : RegIx) (nn : Byte) : fieldNN (encodeFI op x nn) = nn := by
  apply BitVec.eq_of_toNat_eq; rw [fieldNN_toNat, encodeFI_toNat]; omega

@[simp] theorem nibble1_encodeFR (op : Nibble) (x y : RegIx) (fn : Nibble) : nibble1 (encodeFR op x y fn) = op := by
  apply BitVec.eq_of_toNat_eq; rw [nibble1_toNat, encodeFR_toNat]; omega

@[simp] theorem fieldX_encodeFR (op : Nibble) (x y : RegIx) (fn : Nibble) : fieldX (encodeFR op x y fn) = x := by
  apply Fin.ext; rw [fieldX_val, encodeFR_toNat]; omega

@[simp] theorem fieldY_encodeFR (op : Nibble) (x y : RegIx) (fn : Nibble) : fieldY (encodeFR op x y fn) = y := by
  apply Fin.ext; rw [fieldY_val, encodeFR_toNat]; omega

@[simp] theorem nibble4_encodeFR (op : Nibble) (x y : RegIx) (fn : Nibble) : nibble4 (encodeFR op x y fn) = fn := by
  apply BitVec.eq_of_toNat_eq; rw [nibble4_toNat, encodeFR_toNat]; omega

@[simp] theorem fieldN_encodeFR (op : Nibble) (x y : RegIx) (fn : Nibble) : fieldN (encodeFR op x y fn) = fn.toNat := by
  rw [fieldN, nibble4_encodeFR]

/-- A word is the format FA of its fields. -/
theorem encodeFA_fields (w : Word) : encodeFA (nibble1 w) (fieldNNN w) = w := by
  apply BitVec.eq_of_toNat_eq; rw [encodeFA_toNat, nibble1_toNat, fieldNNN_toNat]; omega

/-- A word is the format FI of its fields. -/
theorem encodeFI_fields (w : Word) : encodeFI (nibble1 w) (fieldX w) (fieldNN w) = w := by
  apply BitVec.eq_of_toNat_eq; rw [encodeFI_toNat, nibble1_toNat, fieldX_val, fieldNN_toNat]; omega

/-- A word is the format FR of its fields. -/
theorem encodeFR_fields (w : Word) : encodeFR (nibble1 w) (fieldX w) (fieldY w) (nibble4 w) = w := by
  apply BitVec.eq_of_toNat_eq; rw [encodeFR_toNat, nibble1_toNat, fieldX_val, fieldY_val, nibble4_toNat]; omega

/-! ### The masks of the opcode map (R93) -/

/-- Mask 0xF000 keeps nibble1. -/
theorem and_F000 (w : Word) : w &&& 0xF000#16 = nibble1 w ++ 0#12 := by
  apply BitVec.eq_of_getLsbD_eq
  intro i hi
  have hm : ∀ i, i < 16 → (0xF000#16).getLsbD i = decide (12 ≤ i) := by decide
  rw [BitVec.getLsbD_and, hm i hi, BitVec.getLsbD_append]
  by_cases h : i < 12
  · simp [h]
  · have h1 : 12 + (i - 12) = i := by omega
    have h2 : i - 12 < 4 := by omega
    simp [h, nibble1, h1, h2, Nat.le_of_not_lt h]

/-- Mask 0xF00F keeps nibble1 and nibble4. -/
theorem and_F00F (w : Word) : w &&& 0xF00F#16 = nibble1 w ++ 0#8 ++ nibble4 w := by
  apply BitVec.eq_of_getLsbD_eq
  intro i hi
  have hm : ∀ i, i < 16 → (0xF00F#16).getLsbD i = (decide (12 ≤ i) || decide (i < 4)) := by decide
  rw [BitVec.getLsbD_and, hm i hi, BitVec.getLsbD_append, BitVec.getLsbD_append]
  by_cases h4 : i < 4
  · simp [h4, nibble4]
  · by_cases h : i < 12
    · have h8 : i - 4 < 8 := by omega
      simp [h4, h, h8]
    · have h1 : 12 + (i - 4 - 8) = i := by omega
      have h2 : i - 4 - 8 < 4 := by omega
      have h8 : ¬i - 4 < 8 := by omega
      simp [h4, nibble1, h1, h2, h8, Nat.le_of_not_lt h]

/-- Mask 0xF0FF keeps nibble1 and the low byte. -/
theorem and_F0FF (w : Word) : w &&& 0xF0FF#16 = nibble1 w ++ 0#4 ++ fieldNN w := by
  apply BitVec.eq_of_getLsbD_eq
  intro i hi
  have hm : ∀ i, i < 16 → (0xF0FF#16).getLsbD i = (decide (12 ≤ i) || decide (i < 8)) := by decide
  rw [BitVec.getLsbD_and, hm i hi, BitVec.getLsbD_append, BitVec.getLsbD_append]
  by_cases h4 : i < 8
  · simp [h4, fieldNN]
  · by_cases h : i < 12
    · have h8 : i - 8 < 4 := by omega
      simp [h4, h, h8]
    · have h1 : 12 + (i - 8 - 4) = i := by omega
      have h2 : i - 8 - 4 < 4 := by omega
      have h8 : ¬i - 8 < 4 := by omega
      simp [h4, nibble1, h1, h2, h8, Nat.le_of_not_lt h]

/-- A word whose masked bits are a pattern has the pattern's nibble1 (mask 0xF000). -/
theorem fields_of_and_F000 {w p : Word} (h : w &&& 0xF000 = p) : nibble1 w = nibble1 p := by
  subst h
  apply BitVec.eq_of_getLsbD_eq
  intro i hi
  have hm : ∀ i, i < 4 → (0xF000#16).getLsbD (12 + i) = true := by decide
  simp [nibble1, hi, hm i hi]

/-- A word whose masked bits are a pattern has the pattern's nibble1 and nibble4 (mask 0xF00F). -/
theorem fields_of_and_F00F {w p : Word} (h : w &&& 0xF00F = p) : nibble1 w = nibble1 p ∧ nibble4 w = nibble4 p := by
  subst h
  constructor <;> apply BitVec.eq_of_getLsbD_eq <;> intro i hi
  all_goals
    have hm : ∀ i, i < 4 → (0xF00F#16).getLsbD i = true ∧ (0xF00F#16).getLsbD (12 + i) = true := by decide
    simp [nibble1, nibble4, hi, hm i hi]

/-- A word whose masked bits are a pattern has the pattern's nibble1 and low byte (mask 0xF0FF). -/
theorem fields_of_and_F0FF {w p : Word} (h : w &&& 0xF0FF = p) : nibble1 w = nibble1 p ∧ fieldNN w = fieldNN p := by
  subst h
  constructor <;> apply BitVec.eq_of_getLsbD_eq <;> intro i hi
  all_goals
    have hm : ∀ i, i < 8 → (0xF0FF#16).getLsbD i = true ∧ (i < 4 → (0xF0FF#16).getLsbD (12 + i) = true) := by decide
    have := hm i (by omega)
    simp_all [nibble1, fieldNN]

/-! ### The decoder, one family at a time -/

/-- The sixteen families: nibble1 is one of its sixteen values. -/
theorem nibble1_cases (w : Word) :
    nibble1 w = 0x0 ∨ nibble1 w = 0x1 ∨ nibble1 w = 0x2 ∨ nibble1 w = 0x3 ∨ nibble1 w = 0x4 ∨ nibble1 w = 0x5 ∨
    nibble1 w = 0x6 ∨ nibble1 w = 0x7 ∨ nibble1 w = 0x8 ∨ nibble1 w = 0x9 ∨ nibble1 w = 0xA ∨ nibble1 w = 0xB ∨
    nibble1 w = 0xC ∨ nibble1 w = 0xD ∨ nibble1 w = 0xE ∨ nibble1 w = 0xF := by
  have all : ∀ n : Nibble, n = 0x0 ∨ n = 0x1 ∨ n = 0x2 ∨ n = 0x3 ∨ n = 0x4 ∨ n = 0x5 ∨ n = 0x6 ∨ n = 0x7 ∨ n = 0x8 ∨
    n = 0x9 ∨ n = 0xA ∨ n = 0xB ∨ n = 0xC ∨ n = 0xD ∨ n = 0xE ∨ n = 0xF := by decide
  exact all (nibble1 w)

theorem decodeWord_0 (w : Word) (h : nibble1 w = 0x0) :
    decodeWord w = decodeFamily0 w := by
  simp [decodeWord, h]

theorem decodeWord_1 (w : Word) (h : nibble1 w = 0x1) :
    decodeWord w = .instr (.jp (fieldNNN w)) := by
  simp [decodeWord, h]

theorem decodeWord_2 (w : Word) (h : nibble1 w = 0x2) :
    decodeWord w = .instr (.call (fieldNNN w)) := by
  simp [decodeWord, h]

theorem decodeWord_3 (w : Word) (h : nibble1 w = 0x3) :
    decodeWord w = .instr (.seImm (fieldX w) (fieldNN w)) := by
  simp [decodeWord, h]

theorem decodeWord_4 (w : Word) (h : nibble1 w = 0x4) :
    decodeWord w = .instr (.sneImm (fieldX w) (fieldNN w)) := by
  simp [decodeWord, h]

theorem decodeWord_5 (w : Word) (h : nibble1 w = 0x5) :
    decodeWord w = if nibble4 w = 0x0 then .instr (.seReg (fieldX w) (fieldY w)) else .unimplemented w := by
  simp [decodeWord, h]

theorem decodeWord_6 (w : Word) (h : nibble1 w = 0x6) :
    decodeWord w = .instr (.ldImm (fieldX w) (fieldNN w)) := by
  simp [decodeWord, h]

theorem decodeWord_7 (w : Word) (h : nibble1 w = 0x7) :
    decodeWord w = .instr (.addImm (fieldX w) (fieldNN w)) := by
  simp [decodeWord, h]

theorem decodeWord_8 (w : Word) (h : nibble1 w = 0x8) :
    decodeWord w = decodeFamily8 w := by
  simp [decodeWord, h]

theorem decodeWord_9 (w : Word) (h : nibble1 w = 0x9) :
    decodeWord w = if nibble4 w = 0x0 then .instr (.sneReg (fieldX w) (fieldY w)) else .unimplemented w := by
  simp [decodeWord, h]

theorem decodeWord_A (w : Word) (h : nibble1 w = 0xA) :
    decodeWord w = .instr (.ldI (fieldNNN w)) := by
  simp [decodeWord, h]

theorem decodeWord_B (w : Word) (h : nibble1 w = 0xB) :
    decodeWord w = .instr (.jpV0 (fieldNNN w)) := by
  simp [decodeWord, h]

theorem decodeWord_C (w : Word) (h : nibble1 w = 0xC) :
    decodeWord w = .instr (.rnd (fieldX w) (fieldNN w)) := by
  simp [decodeWord, h]

theorem decodeWord_D (w : Word) (h : nibble1 w = 0xD) :
    decodeWord w = .instr (.drw (fieldX w) (fieldY w) (fieldN w)) := by
  simp [decodeWord, h]

theorem decodeWord_E (w : Word) (h : nibble1 w = 0xE) :
    decodeWord w = decodeFamilyE w := by
  simp [decodeWord, h]

theorem decodeWord_F (w : Word) (h : nibble1 w = 0xF) :
    decodeWord w = decodeFamilyF w := by
  simp [decodeWord, h]

end Sys2Proof
end

