-- ==== Sys2Proof/Laws/State.lean ====
section
/-! SUPPORT. The state's updates, field by field: one lemma per field per update, true by rfl, so that no later proof
unfolds a record update; and what the derived reads see through each update. -/

namespace Sys2Proof.Machine

/-! ### `State.setV` -/

@[simp] theorem State.setV_mem (s : State) (x : RegIx) (b : Byte) : (s.setV x b).mem = s.mem := rfl
@[simp] theorem State.setV_regs (s : State) (x : RegIx) (b : Byte) : (s.setV x b).regs = s.regs.set x b := rfl
@[simp] theorem State.setV_i (s : State) (x : RegIx) (b : Byte) : (s.setV x b).i = s.i := rfl
@[simp] theorem State.setV_pc (s : State) (x : RegIx) (b : Byte) : (s.setV x b).pc = s.pc := rfl
@[simp] theorem State.setV_sp (s : State) (x : RegIx) (b : Byte) : (s.setV x b).sp = s.sp := rfl
@[simp] theorem State.setV_stack (s : State) (x : RegIx) (b : Byte) : (s.setV x b).stack = s.stack := rfl
@[simp] theorem State.setV_dt (s : State) (x : RegIx) (b : Byte) : (s.setV x b).dt = s.dt := rfl
@[simp] theorem State.setV_st (s : State) (x : RegIx) (b : Byte) : (s.setV x b).st = s.st := rfl
@[simp] theorem State.setV_key (s : State) (x : RegIx) (b : Byte) : (s.setV x b).key = s.key := rfl
@[simp] theorem State.setV_fb (s : State) (x : RegIx) (b : Byte) : (s.setV x b).fb = s.fb := rfl
@[simp] theorem State.setV_mode (s : State) (x : RegIx) (b : Byte) : (s.setV x b).mode = s.mode := rfl
@[simp] theorem State.setV_rngDraws (s : State) (x : RegIx) (b : Byte) : (s.setV x b).rngDraws = s.rngDraws := rfl
@[simp] theorem State.setV_readByte (s : State) (x : RegIx) (b : Byte) (a' : Nat) : (s.setV x b).readByte a' = s.readByte a' := rfl
@[simp] theorem State.setV_pixel (s : State) (x : RegIx) (b : Byte) (px : Fin Config.screenW) (py : Fin Config.screenH) :
    (s.setV x b).pixel px py = s.pixel px py := rfl
@[simp] theorem State.setV_fetchWord (s : State) (x : RegIx) (b : Byte) : (s.setV x b).fetchWord = s.fetchWord := rfl
@[simp] theorem State.setV_iAddr (s : State) (x : RegIx) (b : Byte) (k' : Nat) : iAddr (s.setV x b) k' = iAddr s k' := rfl
@[simp] theorem State.setV_lowestPressed (s : State) (x : RegIx) (b : Byte) : lowestPressed (s.setV x b) = lowestPressed s := rfl

/-! ### `State.setI` -/

@[simp] theorem State.setI_mem (s : State) (w : Word) : (s.setI w).mem = s.mem := rfl
@[simp] theorem State.setI_regs (s : State) (w : Word) : (s.setI w).regs = s.regs := rfl
@[simp] theorem State.setI_i (s : State) (w : Word) : (s.setI w).i = w := rfl
@[simp] theorem State.setI_pc (s : State) (w : Word) : (s.setI w).pc = s.pc := rfl
@[simp] theorem State.setI_sp (s : State) (w : Word) : (s.setI w).sp = s.sp := rfl
@[simp] theorem State.setI_stack (s : State) (w : Word) : (s.setI w).stack = s.stack := rfl
@[simp] theorem State.setI_dt (s : State) (w : Word) : (s.setI w).dt = s.dt := rfl
@[simp] theorem State.setI_st (s : State) (w : Word) : (s.setI w).st = s.st := rfl
@[simp] theorem State.setI_key (s : State) (w : Word) : (s.setI w).key = s.key := rfl
@[simp] theorem State.setI_fb (s : State) (w : Word) : (s.setI w).fb = s.fb := rfl
@[simp] theorem State.setI_mode (s : State) (w : Word) : (s.setI w).mode = s.mode := rfl
@[simp] theorem State.setI_rngDraws (s : State) (w : Word) : (s.setI w).rngDraws = s.rngDraws := rfl
@[simp] theorem State.setI_getV (s : State) (w : Word) (r : RegIx) : (s.setI w).getV r = s.getV r := rfl
@[simp] theorem State.setI_readByte (s : State) (w : Word) (a' : Nat) : (s.setI w).readByte a' = s.readByte a' := rfl
@[simp] theorem State.setI_pixel (s : State) (w : Word) (px : Fin Config.screenW) (py : Fin Config.screenH) :
    (s.setI w).pixel px py = s.pixel px py := rfl
@[simp] theorem State.setI_fetchWord (s : State) (w : Word) : (s.setI w).fetchWord = s.fetchWord := rfl
@[simp] theorem State.setI_lowestPressed (s : State) (w : Word) : lowestPressed (s.setI w) = lowestPressed s := rfl

/-! ### `State.setPc` -/

@[simp] theorem State.setPc_mem (s : State) (w : Word) : (s.setPc w).mem = s.mem := rfl
@[simp] theorem State.setPc_regs (s : State) (w : Word) : (s.setPc w).regs = s.regs := rfl
@[simp] theorem State.setPc_i (s : State) (w : Word) : (s.setPc w).i = s.i := rfl
@[simp] theorem State.setPc_pc (s : State) (w : Word) : (s.setPc w).pc = w := rfl
@[simp] theorem State.setPc_sp (s : State) (w : Word) : (s.setPc w).sp = s.sp := rfl
@[simp] theorem State.setPc_stack (s : State) (w : Word) : (s.setPc w).stack = s.stack := rfl
@[simp] theorem State.setPc_dt (s : State) (w : Word) : (s.setPc w).dt = s.dt := rfl
@[simp] theorem State.setPc_st (s : State) (w : Word) : (s.setPc w).st = s.st := rfl
@[simp] theorem State.setPc_key (s : State) (w : Word) : (s.setPc w).key = s.key := rfl
@[simp] theorem State.setPc_fb (s : State) (w : Word) : (s.setPc w).fb = s.fb := rfl
@[simp] theorem State.setPc_mode (s : State) (w : Word) : (s.setPc w).mode = s.mode := rfl
@[simp] theorem State.setPc_rngDraws (s : State) (w : Word) : (s.setPc w).rngDraws = s.rngDraws := rfl
@[simp] theorem State.setPc_getV (s : State) (w : Word) (r : RegIx) : (s.setPc w).getV r = s.getV r := rfl
@[simp] theorem State.setPc_readByte (s : State) (w : Word) (a' : Nat) : (s.setPc w).readByte a' = s.readByte a' := rfl
@[simp] theorem State.setPc_pixel (s : State) (w : Word) (px : Fin Config.screenW) (py : Fin Config.screenH) :
    (s.setPc w).pixel px py = s.pixel px py := rfl
@[simp] theorem State.setPc_iAddr (s : State) (w : Word) (k' : Nat) : iAddr (s.setPc w) k' = iAddr s k' := rfl
@[simp] theorem State.setPc_lowestPressed (s : State) (w : Word) : lowestPressed (s.setPc w) = lowestPressed s := rfl

/-! ### `State.setDt` -/

@[simp] theorem State.setDt_mem (s : State) (b : Byte) : (s.setDt b).mem = s.mem := rfl
@[simp] theorem State.setDt_regs (s : State) (b : Byte) : (s.setDt b).regs = s.regs := rfl
@[simp] theorem State.setDt_i (s : State) (b : Byte) : (s.setDt b).i = s.i := rfl
@[simp] theorem State.setDt_pc (s : State) (b : Byte) : (s.setDt b).pc = s.pc := rfl
@[simp] theorem State.setDt_sp (s : State) (b : Byte) : (s.setDt b).sp = s.sp := rfl
@[simp] theorem State.setDt_stack (s : State) (b : Byte) : (s.setDt b).stack = s.stack := rfl
@[simp] theorem State.setDt_dt (s : State) (b : Byte) : (s.setDt b).dt = b := rfl
@[simp] theorem State.setDt_st (s : State) (b : Byte) : (s.setDt b).st = s.st := rfl
@[simp] theorem State.setDt_key (s : State) (b : Byte) : (s.setDt b).key = s.key := rfl
@[simp] theorem State.setDt_fb (s : State) (b : Byte) : (s.setDt b).fb = s.fb := rfl
@[simp] theorem State.setDt_mode (s : State) (b : Byte) : (s.setDt b).mode = s.mode := rfl
@[simp] theorem State.setDt_rngDraws (s : State) (b : Byte) : (s.setDt b).rngDraws = s.rngDraws := rfl
@[simp] theorem State.setDt_getV (s : State) (b : Byte) (r : RegIx) : (s.setDt b).getV r = s.getV r := rfl
@[simp] theorem State.setDt_readByte (s : State) (b : Byte) (a' : Nat) : (s.setDt b).readByte a' = s.readByte a' := rfl
@[simp] theorem State.setDt_pixel (s : State) (b : Byte) (px : Fin Config.screenW) (py : Fin Config.screenH) :
    (s.setDt b).pixel px py = s.pixel px py := rfl
@[simp] theorem State.setDt_fetchWord (s : State) (b : Byte) : (s.setDt b).fetchWord = s.fetchWord := rfl
@[simp] theorem State.setDt_iAddr (s : State) (b : Byte) (k' : Nat) : iAddr (s.setDt b) k' = iAddr s k' := rfl
@[simp] theorem State.setDt_lowestPressed (s : State) (b : Byte) : lowestPressed (s.setDt b) = lowestPressed s := rfl

/-! ### `State.setSt` -/

@[simp] theorem State.setSt_mem (s : State) (b : Byte) : (s.setSt b).mem = s.mem := rfl
@[simp] theorem State.setSt_regs (s : State) (b : Byte) : (s.setSt b).regs = s.regs := rfl
@[simp] theorem State.setSt_i (s : State) (b : Byte) : (s.setSt b).i = s.i := rfl
@[simp] theorem State.setSt_pc (s : State) (b : Byte) : (s.setSt b).pc = s.pc := rfl
@[simp] theorem State.setSt_sp (s : State) (b : Byte) : (s.setSt b).sp = s.sp := rfl
@[simp] theorem State.setSt_stack (s : State) (b : Byte) : (s.setSt b).stack = s.stack := rfl
@[simp] theorem State.setSt_dt (s : State) (b : Byte) : (s.setSt b).dt = s.dt := rfl
@[simp] theorem State.setSt_st (s : State) (b : Byte) : (s.setSt b).st = b := rfl
@[simp] theorem State.setSt_key (s : State) (b : Byte) : (s.setSt b).key = s.key := rfl
@[simp] theorem State.setSt_fb (s : State) (b : Byte) : (s.setSt b).fb = s.fb := rfl
@[simp] theorem State.setSt_mode (s : State) (b : Byte) : (s.setSt b).mode = s.mode := rfl
@[simp] theorem State.setSt_rngDraws (s : State) (b : Byte) : (s.setSt b).rngDraws = s.rngDraws := rfl
@[simp] theorem State.setSt_getV (s : State) (b : Byte) (r : RegIx) : (s.setSt b).getV r = s.getV r := rfl
@[simp] theorem State.setSt_readByte (s : State) (b : Byte) (a' : Nat) : (s.setSt b).readByte a' = s.readByte a' := rfl
@[simp] theorem State.setSt_pixel (s : State) (b : Byte) (px : Fin Config.screenW) (py : Fin Config.screenH) :
    (s.setSt b).pixel px py = s.pixel px py := rfl
@[simp] theorem State.setSt_fetchWord (s : State) (b : Byte) : (s.setSt b).fetchWord = s.fetchWord := rfl
@[simp] theorem State.setSt_iAddr (s : State) (b : Byte) (k' : Nat) : iAddr (s.setSt b) k' = iAddr s k' := rfl
@[simp] theorem State.setSt_lowestPressed (s : State) (b : Byte) : lowestPressed (s.setSt b) = lowestPressed s := rfl

/-! ### `State.setMode` -/

@[simp] theorem State.setMode_mem (s : State) (m : Mode) : (s.setMode m).mem = s.mem := rfl
@[simp] theorem State.setMode_regs (s : State) (m : Mode) : (s.setMode m).regs = s.regs := rfl
@[simp] theorem State.setMode_i (s : State) (m : Mode) : (s.setMode m).i = s.i := rfl
@[simp] theorem State.setMode_pc (s : State) (m : Mode) : (s.setMode m).pc = s.pc := rfl
@[simp] theorem State.setMode_sp (s : State) (m : Mode) : (s.setMode m).sp = s.sp := rfl
@[simp] theorem State.setMode_stack (s : State) (m : Mode) : (s.setMode m).stack = s.stack := rfl
@[simp] theorem State.setMode_dt (s : State) (m : Mode) : (s.setMode m).dt = s.dt := rfl
@[simp] theorem State.setMode_st (s : State) (m : Mode) : (s.setMode m).st = s.st := rfl
@[simp] theorem State.setMode_key (s : State) (m : Mode) : (s.setMode m).key = s.key := rfl
@[simp] theorem State.setMode_fb (s : State) (m : Mode) : (s.setMode m).fb = s.fb := rfl
@[simp] theorem State.setMode_mode (s : State) (m : Mode) : (s.setMode m).mode = m := rfl
@[simp] theorem State.setMode_rngDraws (s : State) (m : Mode) : (s.setMode m).rngDraws = s.rngDraws := rfl
@[simp] theorem State.setMode_getV (s : State) (m : Mode) (r : RegIx) : (s.setMode m).getV r = s.getV r := rfl
@[simp] theorem State.setMode_readByte (s : State) (m : Mode) (a' : Nat) : (s.setMode m).readByte a' = s.readByte a' := rfl
@[simp] theorem State.setMode_pixel (s : State) (m : Mode) (px : Fin Config.screenW) (py : Fin Config.screenH) :
    (s.setMode m).pixel px py = s.pixel px py := rfl
@[simp] theorem State.setMode_fetchWord (s : State) (m : Mode) : (s.setMode m).fetchWord = s.fetchWord := rfl
@[simp] theorem State.setMode_iAddr (s : State) (m : Mode) (k' : Nat) : iAddr (s.setMode m) k' = iAddr s k' := rfl
@[simp] theorem State.setMode_lowestPressed (s : State) (m : Mode) : lowestPressed (s.setMode m) = lowestPressed s := rfl

/-! ### `State.setKey` -/

@[simp] theorem State.setKey_mem (s : State) (k : KeyIx) (p : Bool) : (s.setKey k p).mem = s.mem := rfl
@[simp] theorem State.setKey_regs (s : State) (k : KeyIx) (p : Bool) : (s.setKey k p).regs = s.regs := rfl
@[simp] theorem State.setKey_i (s : State) (k : KeyIx) (p : Bool) : (s.setKey k p).i = s.i := rfl
@[simp] theorem State.setKey_pc (s : State) (k : KeyIx) (p : Bool) : (s.setKey k p).pc = s.pc := rfl
@[simp] theorem State.setKey_sp (s : State) (k : KeyIx) (p : Bool) : (s.setKey k p).sp = s.sp := rfl
@[simp] theorem State.setKey_stack (s : State) (k : KeyIx) (p : Bool) : (s.setKey k p).stack = s.stack := rfl
@[simp] theorem State.setKey_dt (s : State) (k : KeyIx) (p : Bool) : (s.setKey k p).dt = s.dt := rfl
@[simp] theorem State.setKey_st (s : State) (k : KeyIx) (p : Bool) : (s.setKey k p).st = s.st := rfl
@[simp] theorem State.setKey_key (s : State) (k : KeyIx) (p : Bool) : (s.setKey k p).key = s.key.set k p := rfl
@[simp] theorem State.setKey_fb (s : State) (k : KeyIx) (p : Bool) : (s.setKey k p).fb = s.fb := rfl
@[simp] theorem State.setKey_mode (s : State) (k : KeyIx) (p : Bool) : (s.setKey k p).mode = s.mode := rfl
@[simp] theorem State.setKey_rngDraws (s : State) (k : KeyIx) (p : Bool) : (s.setKey k p).rngDraws = s.rngDraws := rfl
@[simp] theorem State.setKey_getV (s : State) (k : KeyIx) (p : Bool) (r : RegIx) : (s.setKey k p).getV r = s.getV r := rfl
@[simp] theorem State.setKey_readByte (s : State) (k : KeyIx) (p : Bool) (a' : Nat) : (s.setKey k p).readByte a' = s.readByte a' := rfl
@[simp] theorem State.setKey_pixel (s : State) (k : KeyIx) (p : Bool) (px : Fin Config.screenW) (py : Fin Config.screenH) :
    (s.setKey k p).pixel px py = s.pixel px py := rfl
@[simp] theorem State.setKey_fetchWord (s : State) (k : KeyIx) (p : Bool) : (s.setKey k p).fetchWord = s.fetchWord := rfl
@[simp] theorem State.setKey_iAddr (s : State) (k : KeyIx) (p : Bool) (k' : Nat) : iAddr (s.setKey k p) k' = iAddr s k' := rfl

/-! ### `State.setFb` -/

@[simp] theorem State.setFb_mem (s : State) (f : Framebuffer) : (s.setFb f).mem = s.mem := rfl
@[simp] theorem State.setFb_regs (s : State) (f : Framebuffer) : (s.setFb f).regs = s.regs := rfl
@[simp] theorem State.setFb_i (s : State) (f : Framebuffer) : (s.setFb f).i = s.i := rfl
@[simp] theorem State.setFb_pc (s : State) (f : Framebuffer) : (s.setFb f).pc = s.pc := rfl
@[simp] theorem State.setFb_sp (s : State) (f : Framebuffer) : (s.setFb f).sp = s.sp := rfl
@[simp] theorem State.setFb_stack (s : State) (f : Framebuffer) : (s.setFb f).stack = s.stack := rfl
@[simp] theorem State.setFb_dt (s : State) (f : Framebuffer) : (s.setFb f).dt = s.dt := rfl
@[simp] theorem State.setFb_st (s : State) (f : Framebuffer) : (s.setFb f).st = s.st := rfl
@[simp] theorem State.setFb_key (s : State) (f : Framebuffer) : (s.setFb f).key = s.key := rfl
@[simp] theorem State.setFb_fb (s : State) (f : Framebuffer) : (s.setFb f).fb = f := rfl
@[simp] theorem State.setFb_mode (s : State) (f : Framebuffer) : (s.setFb f).mode = s.mode := rfl
@[simp] theorem State.setFb_rngDraws (s : State) (f : Framebuffer) : (s.setFb f).rngDraws = s.rngDraws := rfl
@[simp] theorem State.setFb_getV (s : State) (f : Framebuffer) (r : RegIx) : (s.setFb f).getV r = s.getV r := rfl
@[simp] theorem State.setFb_readByte (s : State) (f : Framebuffer) (a' : Nat) : (s.setFb f).readByte a' = s.readByte a' := rfl
@[simp] theorem State.setFb_fetchWord (s : State) (f : Framebuffer) : (s.setFb f).fetchWord = s.fetchWord := rfl
@[simp] theorem State.setFb_iAddr (s : State) (f : Framebuffer) (k' : Nat) : iAddr (s.setFb f) k' = iAddr s k' := rfl
@[simp] theorem State.setFb_lowestPressed (s : State) (f : Framebuffer) : lowestPressed (s.setFb f) = lowestPressed s := rfl

/-! ### `State.writeBytes` -/

@[simp] theorem State.writeBytes_mem (s : State) (a : Nat) (bs : List Byte) : (s.writeBytes a bs).mem = s.mem.writeList a bs := rfl
@[simp] theorem State.writeBytes_regs (s : State) (a : Nat) (bs : List Byte) : (s.writeBytes a bs).regs = s.regs := rfl
@[simp] theorem State.writeBytes_i (s : State) (a : Nat) (bs : List Byte) : (s.writeBytes a bs).i = s.i := rfl
@[simp] theorem State.writeBytes_pc (s : State) (a : Nat) (bs : List Byte) : (s.writeBytes a bs).pc = s.pc := rfl
@[simp] theorem State.writeBytes_sp (s : State) (a : Nat) (bs : List Byte) : (s.writeBytes a bs).sp = s.sp := rfl
@[simp] theorem State.writeBytes_stack (s : State) (a : Nat) (bs : List Byte) : (s.writeBytes a bs).stack = s.stack := rfl
@[simp] theorem State.writeBytes_dt (s : State) (a : Nat) (bs : List Byte) : (s.writeBytes a bs).dt = s.dt := rfl
@[simp] theorem State.writeBytes_st (s : State) (a : Nat) (bs : List Byte) : (s.writeBytes a bs).st = s.st := rfl
@[simp] theorem State.writeBytes_key (s : State) (a : Nat) (bs : List Byte) : (s.writeBytes a bs).key = s.key := rfl
@[simp] theorem State.writeBytes_fb (s : State) (a : Nat) (bs : List Byte) : (s.writeBytes a bs).fb = s.fb := rfl
@[simp] theorem State.writeBytes_mode (s : State) (a : Nat) (bs : List Byte) : (s.writeBytes a bs).mode = s.mode := rfl
@[simp] theorem State.writeBytes_rngDraws (s : State) (a : Nat) (bs : List Byte) : (s.writeBytes a bs).rngDraws = s.rngDraws := rfl
@[simp] theorem State.writeBytes_getV (s : State) (a : Nat) (bs : List Byte) (r : RegIx) : (s.writeBytes a bs).getV r = s.getV r := rfl
@[simp] theorem State.writeBytes_pixel (s : State) (a : Nat) (bs : List Byte) (px : Fin Config.screenW) (py : Fin Config.screenH) :
    (s.writeBytes a bs).pixel px py = s.pixel px py := rfl
@[simp] theorem State.writeBytes_iAddr (s : State) (a : Nat) (bs : List Byte) (k' : Nat) : iAddr (s.writeBytes a bs) k' = iAddr s k' := rfl
@[simp] theorem State.writeBytes_lowestPressed (s : State) (a : Nat) (bs : List Byte) : lowestPressed (s.writeBytes a bs) = lowestPressed s := rfl

/-! ### `State.loadRegs` -/

@[simp] theorem State.loadRegs_mem (s : State) (x : RegIx) : (s.loadRegs x).mem = s.mem := rfl
@[simp] theorem State.loadRegs_i (s : State) (x : RegIx) : (s.loadRegs x).i = s.i := rfl
@[simp] theorem State.loadRegs_pc (s : State) (x : RegIx) : (s.loadRegs x).pc = s.pc := rfl
@[simp] theorem State.loadRegs_sp (s : State) (x : RegIx) : (s.loadRegs x).sp = s.sp := rfl
@[simp] theorem State.loadRegs_stack (s : State) (x : RegIx) : (s.loadRegs x).stack = s.stack := rfl
@[simp] theorem State.loadRegs_dt (s : State) (x : RegIx) : (s.loadRegs x).dt = s.dt := rfl
@[simp] theorem State.loadRegs_st (s : State) (x : RegIx) : (s.loadRegs x).st = s.st := rfl
@[simp] theorem State.loadRegs_key (s : State) (x : RegIx) : (s.loadRegs x).key = s.key := rfl
@[simp] theorem State.loadRegs_fb (s : State) (x : RegIx) : (s.loadRegs x).fb = s.fb := rfl
@[simp] theorem State.loadRegs_mode (s : State) (x : RegIx) : (s.loadRegs x).mode = s.mode := rfl
@[simp] theorem State.loadRegs_rngDraws (s : State) (x : RegIx) : (s.loadRegs x).rngDraws = s.rngDraws := rfl
@[simp] theorem State.loadRegs_readByte (s : State) (x : RegIx) (a' : Nat) : (s.loadRegs x).readByte a' = s.readByte a' := rfl
@[simp] theorem State.loadRegs_pixel (s : State) (x : RegIx) (px : Fin Config.screenW) (py : Fin Config.screenH) :
    (s.loadRegs x).pixel px py = s.pixel px py := rfl
@[simp] theorem State.loadRegs_fetchWord (s : State) (x : RegIx) : (s.loadRegs x).fetchWord = s.fetchWord := by
  unfold State.fetchWord
  rfl
@[simp] theorem State.loadRegs_iAddr (s : State) (x : RegIx) (k' : Nat) : iAddr (s.loadRegs x) k' = iAddr s k' := rfl
@[simp] theorem State.loadRegs_lowestPressed (s : State) (x : RegIx) : lowestPressed (s.loadRegs x) = lowestPressed s := rfl

/-! ### Registers and pixels that an update does change -/

@[simp] theorem State.setV_getV_same (s : State) (x : RegIx) (b : Byte) : (s.setV x b).getV x = b := by
  simp [State.setV, State.getV]

theorem State.setV_getV_ne (s : State) (x r : RegIx) (b : Byte) (h : r ≠ x) : (s.setV x b).getV r = s.getV r := by
  have h' : x.val ≠ r.val := fun e => h (Fin.ext e.symm)
  simp [State.setV, State.getV, h']

theorem State.setV_getV (s : State) (x r : RegIx) (b : Byte) :
    (s.setV x b).getV r = if r = x then b else s.getV r := by
  by_cases h : r = x
  · subst h; simp
  · simp [h, State.setV_getV_ne s x r b h]

@[simp] theorem State.loadRegs_getV (s : State) (x k : RegIx) :
    (s.loadRegs x).getV k = if k ≤ x then s.readByte (iAddr s k.val) else s.getV k := by
  simp [State.loadRegs, State.getV]

/-! ### Reset: the machine state is the initial one, the position in the random input stays -/

@[simp] theorem State.reset_toMachineState : State.reset.toMachineState = MachineState.initial := rfl
@[simp] theorem hostReset_toMachineState (s : State) : (hostReset s).toMachineState = MachineState.initial := rfl
@[simp] theorem hostReset_rngDraws (s : State) : (hostReset s).rngDraws = s.rngDraws := rfl
@[simp] theorem hostConstruct_toMachineState (s : State) : (hostConstruct s).toMachineState = MachineState.initial := rfl
@[simp] theorem hostConstruct_rngDraws (s : State) : (hostConstruct s).rngDraws = s.rngDraws := rfl

/-- Drawing a random byte changes no component of the machine state (R33). -/
@[simp] theorem State.drawRandom_toMachineState (s : State) : s.drawRandom.2.toMachineState = s.toMachineState := rfl

/-! ### The derived updates in terms of the basic ones -/

@[simp] theorem State.advance_eq (s : State) : s.advance = s.setPc (s.pc + 2) := rfl

@[simp] theorem State.skip_eq (s : State) : s.skip = s.setPc (s.pc + 2) := rfl

@[simp] theorem State.rewind_eq (s : State) : s.rewind = s.setPc (s.pc - 2) := rfl

theorem State.skipIf_eq (s : State) (c : Bool) : s.skipIf c = s.setPc (if c then s.pc + 2 else s.pc) := by
  cases c <;> rfl

@[simp] theorem State.setVFlag_eq (s : State) (x : RegIx) (r f : Byte) : s.setVFlag x r f = (s.setV x r).setV 15 f := rfl

@[simp] theorem State.setPc_setPc (s : State) (v w : Word) : (s.setPc v).setPc w = s.setPc w := rfl

@[simp] theorem State.setPc_pc_self (s : State) : s.setPc s.pc = s := rfl

/-! ### Frames of the basic updates -/

theorem Frame.refl (w : Writes) (s : State) : Frame w s s := by constructor <;> intros <;> rfl

theorem Frame.setPc (s : State) (v : Word) : Frame { pc := true } s (s.setPc v) := by constructor <;> simp

theorem Frame.setI (s : State) (v : Word) : Frame { index := true } s (s.setI v) := by constructor <;> simp

theorem Frame.setDt (s : State) (b : Byte) : Frame { dt := true } s (s.setDt b) := by constructor <;> simp

theorem Frame.setSt (s : State) (b : Byte) : Frame { st := true } s (s.setSt b) := by constructor <;> simp

theorem Frame.setFb (s : State) (f : Framebuffer) : Frame { fb := true } s (s.setFb f) := by constructor <;> simp

theorem Frame.setV (s : State) (x : RegIx) (b : Byte) : Frame { regs := [x] } s (s.setV x b) := by
  constructor <;> simp +contextual [State.setV_getV]

theorem Frame.setVFlag (s : State) (x : RegIx) (r f : Byte) : Frame { regs := [x, 15] } s (s.setVFlag x r f) := by
  constructor <;> simp +contextual [State.setV_getV]

end Sys2Proof.Machine
end

