-- ==== Sys2Proof/Laws/Memory.lean ====
section
/-! SUPPORT. The laws of memory: what a read sees after a write, and that every write keeps the canonical form. -/

namespace Sys2Proof.Machine

/-- An address below every listed one reads as the reset contents. -/
theorem Memory.read_of_lt_all (m : Memory) (a : Nat) (h : ∀ c ∈ m, a < c.1) : m.read a = Memory.background a := by
  induction m with
  | nil => rfl
  | cons c rest ih =>
    have hc : a ≠ c.1 := Nat.ne_of_lt (h c (by simp))
    simp only [Memory.read, hc, if_false]
    exact ih fun d hd => h d (by simp [hd])

/-- A read after a write of one byte: the byte at that address, and what was there at every other (R69, R70). -/
theorem Memory.read_write (m : Memory) (a c : Nat) (b : Byte) (hs : m.Pairwise (fun p q => p.1 < q.1)) :
    (m.write a b).read c = if c = a then b else m.read c := by
  induction m with
  | nil =>
    by_cases hb : b = Memory.background a
    · by_cases hc : c = a <;> simp [Memory.write, Memory.read, hb, hc]
    · simp [Memory.write, Memory.read, hb]
  | cons p rest ih =>
    obtain ⟨k, d⟩ := p
    have hrest := (List.pairwise_cons.mp hs).1
    have ih := ih (List.pairwise_cons.mp hs).2
    simp only [Memory.write]
    by_cases h1 : a < k
    · have hbelow : Memory.read ((k, d) :: rest) a = Memory.background a := by
        apply Memory.read_of_lt_all
        intro q hq
        rcases List.mem_cons.mp hq with rfl | hq
        · exact h1
        · exact Nat.lt_trans h1 (hrest q hq)
      by_cases hb : b = Memory.background a
      · by_cases hc : c = a
        · subst hc; simp [h1, hb, hbelow]
        · simp [h1, hb, hc]
      · by_cases hc : c = a <;> simp [h1, hb, hc, Memory.read]
    · by_cases h2 : a = k
      · subst h2
        have hbelow : Memory.read rest a = Memory.background a := Memory.read_of_lt_all _ _ hrest
        by_cases hb : b = Memory.background a
        · by_cases hc : c = a
          · subst hc; simp [hb, hbelow]
          · simp [hb, hc, Memory.read]
        · by_cases hc : c = a <;> simp [hb, hc, Memory.read]
      · by_cases hc : c = k
        · subst hc
          have : c ≠ a := fun e => h2 e.symm
          simp [h1, h2, Memory.read, this]
        · simp [h1, h2, Memory.read, hc, ih]

/-- Where a written list's entries can come from. -/
theorem Memory.mem_write (m : Memory) (a : Nat) (b : Byte) (c : Host.Cell) (h : c ∈ m.write a b) :
    c ∈ m ∨ (c = (a, b) ∧ b ≠ Memory.background a) := by
  induction m with
  | nil =>
    simp only [Memory.write] at h
    split at h
    · simp at h
    · exact .inr ⟨by simpa using h, ‹_›⟩
  | cons p rest ih =>
    obtain ⟨k, d⟩ := p
    simp only [Memory.write] at h
    split at h
    · split at h
      · exact .inl h
      · rcases List.mem_cons.mp h with h | h
        · exact .inr ⟨h, ‹_›⟩
        · exact .inl h
    · split at h
      · split at h
        · exact .inl (List.mem_cons_of_mem _ h)
        · rcases List.mem_cons.mp h with h | h
          · exact .inr ⟨h, ‹_›⟩
          · exact .inl (List.mem_cons_of_mem _ h)
      · rcases List.mem_cons.mp h with h | h
        · exact .inl (by simp [h])
        · rcases ih h with h | h
          · exact .inl (List.mem_cons_of_mem _ h)
          · exact .inr h

/-- A write keeps the addresses strictly rising. -/
theorem Memory.pairwise_write (m : Memory) (a : Nat) (b : Byte) (hs : m.Pairwise (fun p q => p.1 < q.1)) :
    (m.write a b).Pairwise (fun p q => p.1 < q.1) := by
  induction m with
  | nil => simp only [Memory.write]; split <;> simp
  | cons p rest ih =>
    obtain ⟨k, d⟩ := p
    obtain ⟨hfirst, htail⟩ := List.pairwise_cons.mp hs
    simp only [Memory.write]
    split
    · split
      · exact hs
      · refine List.pairwise_cons.mpr ⟨fun q hq => ?_, hs⟩
        rcases List.mem_cons.mp hq with rfl | hq
        · assumption
        · exact Nat.lt_trans ‹a < k› (hfirst q hq)
    · split
      · split
        · exact htail
        · subst a; exact List.pairwise_cons.mpr ⟨hfirst, htail⟩
      · refine List.pairwise_cons.mpr ⟨fun q hq => ?_, ih htail⟩
        rcases Memory.mem_write _ _ _ _ hq with hq | ⟨rfl, -⟩
        · exact hfirst q hq
        · simp only; omega

/-- A write of one byte at a valid address keeps the canonical form. -/
theorem Memory.wf_write (m : Memory) (a : Nat) (b : Byte) (h : m.wf) (ha : a < Config.memSize) : (m.write a b).wf := by
  refine ⟨Memory.pairwise_write m a b h.1, fun c hc => ?_⟩
  rcases Memory.mem_write m a b c hc with hc | ⟨rfl, hb⟩
  · exact h.2 c hc
  · exact ⟨ha, hb⟩

/-- A write of consecutive bytes at valid addresses keeps the canonical form. -/
theorem Memory.wf_writeList (bs : List Byte) (m : Memory) (a : Nat) (h : m.wf) (ha : a + bs.length ≤ Config.memSize) :
    (m.writeList a bs).wf := by
  induction bs generalizing m a with
  | nil => exact h
  | cons b bs ih =>
    simp only [List.length_cons] at ha
    exact ih _ _ (Memory.wf_write m a b h (by omega)) (by omega)

/-- A write of consecutive bytes keeps the addresses strictly rising. -/
theorem Memory.pairwise_writeList (bs : List Byte) (m : Memory) (a : Nat) (hs : m.Pairwise (fun p q => p.1 < q.1)) :
    (m.writeList a bs).Pairwise (fun p q => p.1 < q.1) := by
  induction bs generalizing m a with
  | nil => exact hs
  | cons b bs ih => exact ih _ _ (Memory.pairwise_write m a b hs)

/-- A read after a write of consecutive bytes: the byte of that place in the list, and what was there elsewhere. -/
theorem Memory.read_writeList (bs : List Byte) (m : Memory) (a c : Nat) (hs : m.Pairwise (fun p q => p.1 < q.1)) :
    (m.writeList a bs).read c = if h : a ≤ c ∧ c - a < bs.length then bs[c - a] else m.read c := by
  induction bs generalizing m a with
  | nil => simp [Memory.writeList]
  | cons b bs ih =>
    rw [Memory.writeList, ih _ _ (Memory.pairwise_write m a b hs), Memory.read_write m a c b hs]
    by_cases hca : c = a
    · subst hca; simp
    · by_cases h : a + 1 ≤ c ∧ c - (a + 1) < bs.length
      · have h' : a ≤ c ∧ c - a < (b :: bs).length := by simp only [List.length_cons]; omega
        have e : c - a = (c - (a + 1)) + 1 := by omega
        simp only [h, h', dif_pos, and_self]
        simp [e]
      · have h' : ¬(a ≤ c ∧ c - a < (b :: bs).length) := by simp only [List.length_cons]; omega
        rw [dif_neg h, dif_neg h', if_neg hca]

/-- Memory after reset has the canonical form. -/
theorem Memory.wf_reset : State.reset.mem.wf := by decide

end Sys2Proof.Machine
end

