-- ==== Sys2Proof/Laws/Ops.lean ====
section
/-! SUPPORT. One lemma per shared operation that says what it can do: bounds check, push, pop, skip, fetch, the key
operands, the stores through I. -/

namespace Sys2Proof.Machine

/-- The bounds check covers every byte address it stands for (R62). -/
theorem inMemory_iff (a n : Nat) : InMemory a n ↔ ∀ k, k < n → a + k < Config.memSize := by
  constructor
  · rintro (rfl | h) k hk
    · exact absurd hk (Nat.not_lt_zero k)
    · omega
  · intro h
    rcases n with _ | n
    · exact .inl rfl
    · exact .inr (h n (Nat.lt_succ_self n))

/-- The bounds check of an access through I, in numbers (R62). -/
theorem inMemory_iAddr (s : State) (n : Nat) : InMemory (iAddr s 0) n ↔ n = 0 ∨ s.i.toNat + n ≤ 4096 := Iff.rfl

theorem whenInMemory_of (a n : Nat) (o : Host.Outcome State Fault Refusal) (h : InMemory a n) : whenInMemory a n o = o := by
  simp only [whenInMemory, h, if_true]

theorem whenInMemory_of_not (a n : Nat) (o : Host.Outcome State Fault Refusal) (h : ¬InMemory a n) :
    whenInMemory a n o = .fault .outOfBounds := by
  simp only [whenInMemory, h, if_false, raise]

/-- If a checked operation answers a next state, its range is in memory and the answer is its own. -/
theorem whenInMemory_next {a n : Nat} {o : Host.Outcome State Fault Refusal} {t : State}
    (h : whenInMemory a n o = .next t) : InMemory a n ∧ o = .next t := by
  by_cases hm : InMemory a n
  · exact ⟨hm, by rwa [whenInMemory_of _ _ _ hm] at h⟩
  · simp [whenInMemory_of_not _ _ _ hm] at h

/-- Push with room: the slot, the count, and the other slots (R143). -/
theorem State.push_spec (s : State) (v : Word) (h : s.sp.val < Config.stackDepth) :
    s.push v = some { s with stack := s.stack.set s.sp.val v h, sp := ⟨s.sp.val + 1, Nat.succ_lt_succ h⟩ } := by
  simp only [State.push, h, dif_pos]

/-- Push on a full stack (R143). -/
theorem State.push_full (s : State) (v : Word) (h : s.sp.val = Config.stackDepth) : s.push v = none := by
  simp [State.push, h]

/-- Pop with an entry: the count falls by one, the value is that slot's, the slots keep their content (R144). -/
theorem State.pop_spec (s : State) (n : Nat) (h : n < Config.stackDepth) (hsp : s.sp.val = n + 1) :
    s.pop = some (s.stack[n], { s with sp := ⟨n, Nat.lt_succ_of_lt h⟩ }) := by
  rcases s with ⟨⟨mem, regs, i, pc, ⟨sp, hlt⟩, stack, dt, st, key, fb, mode⟩, draws⟩
  simp only at hsp
  subst hsp
  rfl

/-- Pop on an empty stack (R144). -/
theorem State.pop_empty (s : State) (h : s.sp.val = 0) : s.pop = none := by
  rcases s with ⟨⟨mem, regs, i, pc, ⟨sp, hlt⟩, stack, dt, st, key, fb, mode⟩, draws⟩
  simp only at h
  subst h
  rfl

/-- A skip writes PC and nothing else. -/
theorem State.skipIf_frame (s : State) (c : Bool) : Frame { pc := true } s (s.skipIf c) := by
  rw [State.skipIf_eq]; exact Frame.setPc s _

/-- The word at a PC both of whose bytes exist (R121, R63). -/
theorem State.fetchWord_of_lt (s : State) (h : s.pc.toNat + 1 < Config.memSize) :
    s.fetchWord = some (wordOfBytes (s.readByte s.pc.toNat) (s.readByte (s.pc.toNat + 1))) := by
  simp only [State.fetchWord, h, if_true]

/-- A fetch that answers a word had both bytes in memory. -/
theorem State.fetchWord_some {s : State} {w : Word} (h : s.fetchWord = some w) :
    s.pc.toNat + 1 < Config.memSize ∧
      w = wordOfBytes (s.readByte s.pc.toNat) (s.readByte (s.pc.toNat + 1)) := by
  simp only [State.fetchWord] at h
  split at h
  · exact ⟨‹_›, (Option.some.inj h).symm⟩
  · exact absurd h (by simp)

/-- The lowest pressed key is pressed and every key below it is not. -/
theorem lowestPressed_eq_some_iff (s : State) (k : KeyIx) : lowestPressed s = some k ↔ IsLowestPressed s k := by
  simp only [lowestPressed, IsLowestPressed, List.find?_eq_some_iff_getElem]
  constructor
  · rintro ⟨hk, i, hi, hget, hbelow⟩
    refine ⟨by simpa using hk, fun j hj => ?_⟩
    have hik : i = k.val := by simpa using congrArg Fin.val hget
    have := hbelow j.val (by rw [hik]; exact hj)
    simpa using this
  · rintro ⟨hk, hbelow⟩
    refine ⟨by simpa using hk, k.val, by simp, by simp, fun j hj => ?_⟩
    have := hbelow ⟨j, Nat.lt_trans hj k.isLt⟩ hj
    simpa using this

/-- No lowest pressed key means no key is pressed. -/
theorem lowestPressed_eq_none_iff (s : State) : lowestPressed s = none ↔ NoKeyPressed s := by
  simp [lowestPressed, NoKeyPressed, List.find?_eq_none]

theorem keyIndex_of_lt (v : Byte) (h : v.toNat < 16) : keyIndex v = some ⟨v.toNat, h⟩ := by
  simp only [keyIndex, h, dif_pos]

theorem keyIndex_of_ge (v : Byte) (h : 15 < v.toNat) : keyIndex v = none := by
  have : ¬v.toNat < 16 := by omega
  simp only [keyIndex, this, dif_neg, not_false_eq_true]

@[simp] theorem keyByte_toNat (k : KeyIx) : (keyByte k).toNat = k.val := by
  simp only [keyByte, BitVec.toNat_ofNat]; omega

@[simp] theorem zext16_toNat (nnn : Addr12) : (zext16 nnn).toNat = nnn.toNat := by
  simp only [zext16, BitVec.toNat_setWidth]; omega

@[simp] theorem byteToWord_toNat (b : Byte) : (byteToWord b).toNat = b.toNat := by
  simp only [byteToWord, BitVec.toNat_setWidth]; omega

@[simp] theorem flagByte_toNat (b : Bool) : (flagByte b).toNat = if b then 1 else 0 := by cases b <;> rfl

@[simp] theorem bcdDigits_length (v : Byte) : (bcdDigits v).length = 3 := rfl

@[simp] theorem regsUpTo_length (s : State) (x : RegIx) : (regsUpTo s x).length = x.val + 1 := by
  simp only [regsUpTo, List.length_take, Vector.length_toList]; omega

theorem regsUpTo_getElem (s : State) (x : RegIx) (k : Nat) (h : k < (regsUpTo s x).length) :
    (regsUpTo s x)[k] = s.getV ⟨k, by simp only [regsUpTo_length] at h; omega⟩ := by
  simp [regsUpTo, State.getV]

theorem mem_iAddrs (s : State) (n a : Nat) : a ∈ iAddrs s n ↔ s.i.toNat ≤ a ∧ a - s.i.toNat < n := by
  simp only [iAddrs, iAddr, List.mem_map, List.mem_range]
  constructor
  · rintro ⟨k, hk, rfl⟩; omega
  · rintro ⟨h1, h2⟩; exact ⟨a - s.i.toNat, h2, by omega⟩

/-- What reading sees after consecutive bytes are stored, on memory whose addresses rise strictly (R69, R70). -/
theorem State.writeBytes_readByte (s : State) (a : Nat) (bs : List Byte) (c : Nat) (hs : s.mem.wf) :
    (s.writeBytes a bs).readByte c = if h : a ≤ c ∧ c - a < bs.length then bs[c - a] else s.readByte c :=
  Memory.read_writeList bs s.mem a c hs.1

/-- A store of consecutive bytes leaves everything else alone. -/
theorem Frame.writeBytes (s : State) (a : Nat) (bs : List Byte) (l : List Nat) (hs : s.mem.wf)
    (hl : ∀ c, a ≤ c ∧ c - a < bs.length → c ∈ l) : Frame { bytes := l } s (s.writeBytes a bs) := by
  constructor
  case bytes =>
    intro c hc
    rw [State.writeBytes_readByte s a bs c hs, dif_neg fun h => hc (hl c h)]
  all_goals simp

end Sys2Proof.Machine
end

