-- ==== Sys2Proof/Laws/Display.lean ====
section
/-! SUPPORT. What the sprite blit does: one toggle, one row, all rows. Within one draw no pixel is toggled twice, since
the columns 0..7 stay distinct modulo 64 and up to 32 rows stay distinct modulo 32 (spec/44_display.md R243). -/

namespace Sys2Proof.Machine

/-- A pixel after one toggle: inverted at that place, as before elsewhere. -/
theorem togglePixel_get (f : Framebuffer) (x px : Fin Config.screenW) (y py : Fin Config.screenH) :
    (togglePixel f x y)[py][px] = if px = x ∧ py = y then !f[py][px] else f[py][px] := by
  by_cases hy : py = y
  · subst hy
    by_cases hx : px = x
    · subst hx; simp [togglePixel]
    · have hx' : x.val ≠ px.val := fun e => hx (Fin.ext e.symm)
      simp [togglePixel, hx, hx']
  · have hy' : y.val ≠ py.val := fun e => hy (Fin.ext e.symm)
    simp [togglePixel, hy, hy']

/-- A 1 bit of row `row`, among its first `k` columns, falls on the pixel. -/
def RowTouches (ox oy row : Nat) (b : Byte) (k : Nat) (px : Fin Config.screenW) (py : Fin Config.screenH) : Prop :=
  ∃ col, col < k ∧ spriteBit b col = true ∧ px = wrapX (ox + col) ∧ py = wrapY (oy + row)

/-- A 1 bit of the first `n` rows falls on the pixel. -/
def BlitTouches (ox oy n : Nat) (rowByte : Nat → Byte) (px : Fin Config.screenW) (py : Fin Config.screenH) : Prop :=
  ∃ row, row < n ∧ RowTouches ox oy row (rowByte row) 8 px py

theorem wrapX_ne {ox c k : Nat} (hc : c < k) (hk : k < 64) : wrapX (ox + k) ≠ wrapX (ox + c) := by
  intro h
  have : (ox + k) % 64 = (ox + c) % 64 := congrArg Fin.val h
  omega

theorem wrapY_ne {oy r n : Nat} (hr : r < n) (hn : n < 32) : wrapY (oy + n) ≠ wrapY (oy + r) := by
  intro h
  have : (oy + n) % 32 = (oy + r) % 32 := congrArg Fin.val h
  omega

/-- The effect of a set of toggled pixels `T` on a framebuffer and a collision: exactly the pixels of `T` are inverted,
and the collision says whether one of them was set. -/
structure Toggles (T : Fin Config.screenW → Fin Config.screenH → Prop) (a b : Framebuffer × Bool) : Prop where
  pixels : ∀ px py, (b.1[py][px] ≠ a.1[py][px] ↔ T px py)
  collision : b.2 = true ↔ a.2 = true ∨ ∃ px py, T px py ∧ a.1[py][px] = true

/-- Toggling nothing. -/
theorem Toggles.none (T : Fin Config.screenW → Fin Config.screenH → Prop) (hT : ∀ px py, ¬T px py)
    (a : Framebuffer × Bool) : Toggles T a a :=
  ⟨fun px py => by simp [hT px py], by simp [hT]⟩

/-- Two disjoint sets of toggles one after the other. -/
theorem Toggles.trans {T U V : Fin Config.screenW → Fin Config.screenH → Prop} {a b c : Framebuffer × Bool}
    (hab : Toggles T a b) (hbc : Toggles U b c) (hdisj : ∀ px py, T px py → ¬U px py)
    (hV : ∀ px py, V px py ↔ T px py ∨ U px py) : Toggles V a c := by
  have same : ∀ px py, U px py → b.1[py][px] = a.1[py][px] := fun px py hu => by
    by_contra hne
    exact hdisj px py ((hab.pixels px py).mp hne) hu
  constructor
  · intro px py
    have h1 := hab.pixels px py
    have h2 := hbc.pixels px py
    rw [hV, ← h1, ← h2]
    have hd := hdisj px py
    rw [← h1, ← h2] at hd
    revert hd
    cases a.1[py][px] <;> cases b.1[py][px] <;> cases c.1[py][px] <;> simp
  · rw [hbc.collision, hab.collision, or_assoc]
    refine or_congr_right ⟨?_, ?_⟩
    · rintro (⟨px, py, ht, hs⟩ | ⟨px, py, hu, hs⟩)
      · exact ⟨px, py, (hV px py).mpr (.inl ht), hs⟩
      · exact ⟨px, py, (hV px py).mpr (.inr hu), by rwa [← same px py hu]⟩
    · rintro ⟨px, py, hv, hs⟩
      rcases (hV px py).mp hv with ht | hu
      · exact .inl ⟨px, py, ht, hs⟩
      · exact .inr ⟨px, py, hu, by rwa [same px py hu]⟩

/-- One column: its pixel is toggled when the bit is 1 (R241). -/
theorem blitPixel_toggles (ox oy row : Nat) (b : Byte) (acc : Framebuffer × Bool) (col : Nat) :
    Toggles (fun px py => spriteBit b col = true ∧ px = wrapX (ox + col) ∧ py = wrapY (oy + row)) acc
      (blitPixel ox oy row b acc col) := by
  by_cases hb : spriteBit b col = true
  · constructor
    · intro px py
      simp only [blitPixel, hb, if_true, togglePixel_get, true_and]
      by_cases h : px = wrapX (ox + col) ∧ py = wrapY (oy + row) <;> simp [h]
    · simp [blitPixel, hb]
  · have e : blitPixel ox oy row b acc col = acc := if_neg hb
    rw [e]
    exact Toggles.none _ (fun _ _ h => hb h.1) acc

/-- The first `k` columns of a row (R241). -/
theorem blitColumns_toggles (ox oy row : Nat) (b : Byte) (acc : Framebuffer × Bool) (k : Nat) (hk : k ≤ 64) :
    Toggles (RowTouches ox oy row b k) acc ((List.range k).foldl (blitPixel ox oy row b) acc) := by
  induction k with
  | zero => exact Toggles.none _ (fun _ _ ⟨_, h, _⟩ => absurd h (Nat.not_lt_zero _)) acc
  | succ k ih =>
    rw [List.range_succ, List.foldl_append]
    refine (ih (by omega)).trans (blitPixel_toggles ox oy row b _ k) ?_ ?_
    · rintro px py ⟨c, hc, -, hx, -⟩ ⟨-, hx', -⟩
      exact wrapX_ne hc (by omega) (hx'.symm.trans hx)
    · intro px py
      constructor
      · rintro ⟨c, hc, hb, hx, hy⟩
        rcases Nat.lt_succ_iff_lt_or_eq.mp hc with hc | rfl
        · exact .inl ⟨c, hc, hb, hx, hy⟩
        · exact .inr ⟨hb, hx, hy⟩
      · rintro (⟨c, hc, hb, hx, hy⟩ | ⟨hb, hx, hy⟩)
        · exact ⟨c, by omega, hb, hx, hy⟩
        · exact ⟨k, by omega, hb, hx, hy⟩

/-- All rows: exactly the pixels that a 1 bit falls on are inverted, and the collision says whether one of them was
set (R241 to R243). -/
theorem blit_toggles (ox oy n : Nat) (rowByte : Nat → Byte) (f : Framebuffer) (hn : n ≤ 32) :
    Toggles (BlitTouches ox oy n rowByte) (f, false) (blit ox oy n rowByte f) := by
  induction n with
  | zero => exact Toggles.none _ (fun _ _ ⟨_, h, _⟩ => absurd h (Nat.not_lt_zero _)) _
  | succ n ih =>
    unfold blit at ih ⊢
    rw [List.range_succ, List.foldl_append]
    refine (ih (by omega)).trans (blitColumns_toggles ox oy n (rowByte n) _ 8 (by omega)) ?_ ?_
    · rintro px py ⟨r, hr, _, -, -, -, hy⟩ ⟨_, -, -, -, hy'⟩
      exact wrapY_ne hr (by omega) (hy'.symm.trans hy)
    · intro px py
      constructor
      · rintro ⟨r, hr, h⟩
        rcases Nat.lt_succ_iff_lt_or_eq.mp hr with hr | rfl
        · exact .inl ⟨r, hr, h⟩
        · exact .inr h
      · rintro (⟨r, hr, h⟩ | h)
        · exact ⟨r, by omega, h⟩
        · exact ⟨n, by omega, h⟩

end Sys2Proof.Machine
end

