-- ==== Sys2Proof/Laws/Exec.lean ====
section
/-! SUPPORT. What an instruction can do to the state, said once: the shapes of effect, and that every next state of
`exec` has one of them. Invariants are proved from these shapes, not from the meanings. -/

namespace Sys2Proof.Machine

/-- The shapes of an instruction's effect on the state after the fetch advance. -/
inductive Effect (s : State) : Instr → State → Prop where
  /-- Nothing changes: NOP, a skip not taken. -/
  | keeps (i : Instr) : Effect s i s
  /-- One register is written. -/
  | register (i : Instr) (x : RegIx) (b : Byte) : Effect s i (s.setV x b)
  /-- A result and a flag are written, the flag last. -/
  | flagged (i : Instr) (x : RegIx) (b f : Byte) : Effect s i ((s.setV x b).setV flagReg f)
  /-- One random byte is drawn and a register written. -/
  | random (i : Instr) (x : RegIx) (b : Byte) : Effect s i (s.drawRandom.2.setV x b)
  /-- V0 .. VX are loaded from memory. -/
  | registers (i : Instr) (x : RegIx) : Effect s i (s.loadRegs x)
  /-- I is written. -/
  | index (i : Instr) (w : Word) : Effect s i (s.setI w)
  /-- DT is written. -/
  | delay (i : Instr) (b : Byte) : Effect s i (s.setDt b)
  /-- ST is written. -/
  | sound (i : Instr) (b : Byte) : Effect s i (s.setSt b)
  /-- The screen is cleared. -/
  | screen (i : Instr) (f : Framebuffer) : Effect s i (s.setFb f)
  /-- A sprite is drawn and VF written. -/
  | drawn (i : Instr) (f : Framebuffer) (b : Byte) : Effect s i ((s.setFb f).setV flagReg b)
  /-- Bytes at valid addresses from I on are stored. -/
  | stored (i : Instr) (bs : List Byte) (h : s.i.toNat + bs.length ≤ Config.memSize) :
      Effect s i (s.writeBytes (iAddr s 0) bs)
  /-- A skip is taken. -/
  | skipped (i : Instr) : Effect s i s.skip
  /-- PC becomes a target of at most `0xFF + 0xFFF`. -/
  | jumped (i : Instr) (w : Word) (h : w.toNat ≤ 0x10FE) : Effect s i (s.setPc w)
  /-- The return address goes on the stack and PC becomes NNN. -/
  | called (i : Instr) (t : State) (nnn : Addr12) (h : s.push s.pc = some t) : Effect s i (t.setPc (zext16 nnn))
  /-- The return address comes off the stack into PC. -/
  | returned (i : Instr) (w : Word) (t : State) (h : s.pop = some (w, t)) : Effect s i (t.setPc w)
  /-- FX0A with no key pressed: the fetch advance is undone and the machine waits. -/
  | waits (x : RegIx) : Effect s (.ldVxK x) (s.rewind.setMode (.waitingForKey x))

theorem Effect.skipIf (i : Instr) (s : State) (c : Bool) : Effect s i (s.skipIf c) := by
  cases c
  · exact .keeps i
  · exact .skipped i

theorem skipOnKey_effect {i : Instr} {x : RegIx} {p : Bool} {s t : State} (h : skipOnKey x p s = .next t) : Effect s i t := by
  simp only [skipOnKey] at h
  split at h
  · cases h
  · cases h; exact Effect.skipIf _ _ _

/-- Every next state of an instruction has one of the shapes. -/
theorem exec_effect {i : Instr} {s t : State} (h : exec i s = .next t) : Effect s i t := by
  cases i <;> simp only [exec] at h
  case nop => cases h; exact .keeps _
  case cls => cases h; exact .screen _ _
  case ret =>
    simp only [execRet] at h
    split at h
    · cases h
    · cases h; exact .returned _ _ _ ‹_›
  case jp nnn => cases h; exact .jumped _ _ (by rw [zext16_toNat]; omega)
  case call nnn =>
    simp only [execCall] at h
    split at h
    · cases h
    · cases h; exact .called _ _ _ ‹_›
  case jpV0 nnn =>
    cases h
    exact .jumped _ _ (by rw [BitVec.toNat_add, byteToWord_toNat, zext16_toNat]; omega)
  case seImm => cases h; exact Effect.skipIf _ _ _
  case sneImm => cases h; exact Effect.skipIf _ _ _
  case seReg => cases h; exact Effect.skipIf _ _ _
  case sneReg => cases h; exact Effect.skipIf _ _ _
  case ldImm => cases h; exact .register _ _ _
  case addImm => cases h; exact .register _ _ _
  case ldReg => cases h; exact .register _ _ _
  case orReg => cases h; exact .register _ _ _
  case andReg => cases h; exact .register _ _ _
  case xorReg => cases h; exact .register _ _ _
  case ldVxDt => cases h; exact .register _ _ _
  case addReg => cases h; exact .flagged _ _ _ _
  case subReg => cases h; exact .flagged _ _ _ _
  case subnReg => cases h; exact .flagged _ _ _ _
  case shr => cases h; exact .flagged _ _ _ _
  case shl => cases h; exact .flagged _ _ _ _
  case rnd => cases h; exact .random _ _ _
  case ldI => cases h; exact .index _ _
  case addIVx => cases h; exact .index _ _
  case ldFVx => cases h; exact .index _ _
  case ldDtVx => cases h; exact .delay _ _
  case ldStVx => cases h; exact .sound _ _
  case drw x y n => obtain ⟨-, h⟩ := whenInMemory_next h; cases h; exact .drawn _ _ _
  case skp => exact skipOnKey_effect h
  case sknp => exact skipOnKey_effect h
  case ldVxK x =>
    simp only [execLdVxK] at h
    split at h
    · cases h; exact .register _ _ _
    · cases h; exact .waits x
  case ldBVx x =>
    obtain ⟨hin, h⟩ := whenInMemory_next h; cases h
    rw [inMemory_iAddr] at hin
    exact .stored _ _ (by rw [bcdDigits_length]; show _ ≤ 4096; omega)
  case ldMemVx x =>
    obtain ⟨hin, h⟩ := whenInMemory_next h; cases h
    rw [inMemory_iAddr] at hin
    exact .stored _ _ (by rw [regsUpTo_length]; show _ ≤ 4096; omega)
  case ldVxMem x => obtain ⟨-, h⟩ := whenInMemory_next h; cases h; exact .registers _ _

end Sys2Proof.Machine
end

