-- ==== Sys2Proof/Laws/PerInstr.lean ====
section
/-! SUPPORT. Per-instruction families: what holds of every instruction term as syntax, one lemma per constructor. -/

namespace Sys2Proof.Laws

/-- The encoding of an instruction lies in that instruction's row of the opcode map (R93). -/
def EncodeMatchesRow.Statement (i : Instr) : Prop :=
  ∃ row ∈ opcodeTable, row.covers (encode i) = true ∧ row.mnemonic = i.mnemonic

theorem EncodeMatchesRow.nop : EncodeMatchesRow.Statement (.nop) :=
  ⟨⟨"NOP", 0xFFFF, 0x0000⟩, by decide, by simp [OpcodeRow.covers, encode], rfl⟩

theorem EncodeMatchesRow.cls : EncodeMatchesRow.Statement (.cls) :=
  ⟨⟨"CLS", 0xFFFF, 0x00E0⟩, by decide, by simp [OpcodeRow.covers, encode], rfl⟩

theorem EncodeMatchesRow.ret : EncodeMatchesRow.Statement (.ret) :=
  ⟨⟨"RET", 0xFFFF, 0x00EE⟩, by decide, by simp [OpcodeRow.covers, encode], rfl⟩

theorem EncodeMatchesRow.jp (nnn : Addr12) : EncodeMatchesRow.Statement (.jp nnn) :=
  ⟨⟨"JP_NNN", 0xF000, 0x1000⟩, by decide, by simp [OpcodeRow.covers, encode, and_F000], rfl⟩

theorem EncodeMatchesRow.call (nnn : Addr12) : EncodeMatchesRow.Statement (.call nnn) :=
  ⟨⟨"CALL_NNN", 0xF000, 0x2000⟩, by decide, by simp [OpcodeRow.covers, encode, and_F000], rfl⟩

theorem EncodeMatchesRow.seImm (x : RegIx) (nn : Byte) : EncodeMatchesRow.Statement (.seImm x nn) :=
  ⟨⟨"SE_VX__NN", 0xF000, 0x3000⟩, by decide, by simp [OpcodeRow.covers, encode, and_F000], rfl⟩

theorem EncodeMatchesRow.sneImm (x : RegIx) (nn : Byte) : EncodeMatchesRow.Statement (.sneImm x nn) :=
  ⟨⟨"SNE_VX__NN", 0xF000, 0x4000⟩, by decide, by simp [OpcodeRow.covers, encode, and_F000], rfl⟩

theorem EncodeMatchesRow.seReg (x y : RegIx) : EncodeMatchesRow.Statement (.seReg x y) :=
  ⟨⟨"SE_VX__VY", 0xF00F, 0x5000⟩, by decide, by simp [OpcodeRow.covers, encode, and_F00F], rfl⟩

theorem EncodeMatchesRow.ldImm (x : RegIx) (nn : Byte) : EncodeMatchesRow.Statement (.ldImm x nn) :=
  ⟨⟨"LD_VX__NN", 0xF000, 0x6000⟩, by decide, by simp [OpcodeRow.covers, encode, and_F000], rfl⟩

theorem EncodeMatchesRow.addImm (x : RegIx) (nn : Byte) : EncodeMatchesRow.Statement (.addImm x nn) :=
  ⟨⟨"ADD_VX__NN", 0xF000, 0x7000⟩, by decide, by simp [OpcodeRow.covers, encode, and_F000], rfl⟩

theorem EncodeMatchesRow.ldReg (x y : RegIx) : EncodeMatchesRow.Statement (.ldReg x y) :=
  ⟨⟨"LD_VX__VY", 0xF00F, 0x8000⟩, by decide, by simp [OpcodeRow.covers, encode, and_F00F], rfl⟩

theorem EncodeMatchesRow.orReg (x y : RegIx) : EncodeMatchesRow.Statement (.orReg x y) :=
  ⟨⟨"OR_VX__VY", 0xF00F, 0x8001⟩, by decide, by simp [OpcodeRow.covers, encode, and_F00F], rfl⟩

theorem EncodeMatchesRow.andReg (x y : RegIx) : EncodeMatchesRow.Statement (.andReg x y) :=
  ⟨⟨"AND_VX__VY", 0xF00F, 0x8002⟩, by decide, by simp [OpcodeRow.covers, encode, and_F00F], rfl⟩

theorem EncodeMatchesRow.xorReg (x y : RegIx) : EncodeMatchesRow.Statement (.xorReg x y) :=
  ⟨⟨"XOR_VX__VY", 0xF00F, 0x8003⟩, by decide, by simp [OpcodeRow.covers, encode, and_F00F], rfl⟩

theorem EncodeMatchesRow.addReg (x y : RegIx) : EncodeMatchesRow.Statement (.addReg x y) :=
  ⟨⟨"ADD_VX__VY", 0xF00F, 0x8004⟩, by decide, by simp [OpcodeRow.covers, encode, and_F00F], rfl⟩

theorem EncodeMatchesRow.subReg (x y : RegIx) : EncodeMatchesRow.Statement (.subReg x y) :=
  ⟨⟨"SUB_VX__VY", 0xF00F, 0x8005⟩, by decide, by simp [OpcodeRow.covers, encode, and_F00F], rfl⟩

theorem EncodeMatchesRow.shr (x y : RegIx) : EncodeMatchesRow.Statement (.shr x y) :=
  ⟨⟨"SHR_VX____VY", 0xF00F, 0x8006⟩, by decide, by simp [OpcodeRow.covers, encode, and_F00F], rfl⟩

theorem EncodeMatchesRow.subnReg (x y : RegIx) : EncodeMatchesRow.Statement (.subnReg x y) :=
  ⟨⟨"SUBN_VX__VY", 0xF00F, 0x8007⟩, by decide, by simp [OpcodeRow.covers, encode, and_F00F], rfl⟩

theorem EncodeMatchesRow.shl (x y : RegIx) : EncodeMatchesRow.Statement (.shl x y) :=
  ⟨⟨"SHL_VX____VY", 0xF00F, 0x800E⟩, by decide, by simp [OpcodeRow.covers, encode, and_F00F], rfl⟩

theorem EncodeMatchesRow.sneReg (x y : RegIx) : EncodeMatchesRow.Statement (.sneReg x y) :=
  ⟨⟨"SNE_VX__VY", 0xF00F, 0x9000⟩, by decide, by simp [OpcodeRow.covers, encode, and_F00F], rfl⟩

theorem EncodeMatchesRow.ldI (nnn : Addr12) : EncodeMatchesRow.Statement (.ldI nnn) :=
  ⟨⟨"LD_I__NNN", 0xF000, 0xA000⟩, by decide, by simp [OpcodeRow.covers, encode, and_F000], rfl⟩

theorem EncodeMatchesRow.jpV0 (nnn : Addr12) : EncodeMatchesRow.Statement (.jpV0 nnn) :=
  ⟨⟨"JP_V0__NNN", 0xF000, 0xB000⟩, by decide, by simp [OpcodeRow.covers, encode, and_F000], rfl⟩

theorem EncodeMatchesRow.rnd (x : RegIx) (nn : Byte) : EncodeMatchesRow.Statement (.rnd x nn) :=
  ⟨⟨"RND_VX__NN", 0xF000, 0xC000⟩, by decide, by simp [OpcodeRow.covers, encode, and_F000], rfl⟩

theorem EncodeMatchesRow.drw (x y : RegIx) (n : Nat) : EncodeMatchesRow.Statement (.drw x y n) :=
  ⟨⟨"DRW_VX__VY__N", 0xF000, 0xD000⟩, by decide, by simp [OpcodeRow.covers, encode, and_F000], rfl⟩

theorem EncodeMatchesRow.skp (x : RegIx) : EncodeMatchesRow.Statement (.skp x) :=
  ⟨⟨"SKP_VX", 0xF0FF, 0xE09E⟩, by decide, by simp [OpcodeRow.covers, encode, and_F0FF], rfl⟩

theorem EncodeMatchesRow.sknp (x : RegIx) : EncodeMatchesRow.Statement (.sknp x) :=
  ⟨⟨"SKNP_VX", 0xF0FF, 0xE0A1⟩, by decide, by simp [OpcodeRow.covers, encode, and_F0FF], rfl⟩

theorem EncodeMatchesRow.ldVxDt (x : RegIx) : EncodeMatchesRow.Statement (.ldVxDt x) :=
  ⟨⟨"LD_VX__DT", 0xF0FF, 0xF007⟩, by decide, by simp [OpcodeRow.covers, encode, and_F0FF], rfl⟩

theorem EncodeMatchesRow.ldVxK (x : RegIx) : EncodeMatchesRow.Statement (.ldVxK x) :=
  ⟨⟨"LD_VX__K", 0xF0FF, 0xF00A⟩, by decide, by simp [OpcodeRow.covers, encode, and_F0FF], rfl⟩

theorem EncodeMatchesRow.ldDtVx (x : RegIx) : EncodeMatchesRow.Statement (.ldDtVx x) :=
  ⟨⟨"LD_DT__VX", 0xF0FF, 0xF015⟩, by decide, by simp [OpcodeRow.covers, encode, and_F0FF], rfl⟩

theorem EncodeMatchesRow.ldStVx (x : RegIx) : EncodeMatchesRow.Statement (.ldStVx x) :=
  ⟨⟨"LD_ST__VX", 0xF0FF, 0xF018⟩, by decide, by simp [OpcodeRow.covers, encode, and_F0FF], rfl⟩

theorem EncodeMatchesRow.addIVx (x : RegIx) : EncodeMatchesRow.Statement (.addIVx x) :=
  ⟨⟨"ADD_I__VX", 0xF0FF, 0xF01E⟩, by decide, by simp [OpcodeRow.covers, encode, and_F0FF], rfl⟩

theorem EncodeMatchesRow.ldFVx (x : RegIx) : EncodeMatchesRow.Statement (.ldFVx x) :=
  ⟨⟨"LD_F__VX", 0xF0FF, 0xF029⟩, by decide, by simp [OpcodeRow.covers, encode, and_F0FF], rfl⟩

theorem EncodeMatchesRow.ldBVx (x : RegIx) : EncodeMatchesRow.Statement (.ldBVx x) :=
  ⟨⟨"LD_B__VX", 0xF0FF, 0xF033⟩, by decide, by simp [OpcodeRow.covers, encode, and_F0FF], rfl⟩

theorem EncodeMatchesRow.ldMemVx (x : RegIx) : EncodeMatchesRow.Statement (.ldMemVx x) :=
  ⟨⟨"LD__I___VX", 0xF0FF, 0xF055⟩, by decide, by simp [OpcodeRow.covers, encode, and_F0FF], rfl⟩

theorem EncodeMatchesRow.ldVxMem (x : RegIx) : EncodeMatchesRow.Statement (.ldVxMem x) :=
  ⟨⟨"LD_VX___I", 0xF0FF, 0xF065⟩, by decide, by simp [OpcodeRow.covers, encode, and_F0FF], rfl⟩

end Sys2Proof.Laws
end

