-- ==== Sys2Proof/Tests/Slice0.lean ====
section
/-! SUPPORT. The model's own tests: ill-formed terms refused, one written-out word per constructor, single steps whose
results are the vectors of spec/95_test_vectors.md (named in each comment), and, for every statement with hypotheses,
a concrete state and operands that meet them. -/

namespace Sys2Proof.Tests

open Sys2Proof.Machine

/-! ### Well-formedness (R92: N is 0..15) -/

theorem test_row_count_16_is_ill_formed : (Instr.drw 0 0 16).wellFormed = false := by decide

theorem test_row_count_15_is_well_formed : (Instr.drw 0 0 15).wellFormed = true := by decide

/-! ### Decoding: words written out from the encodings of R93 -/

/-- Family 0: 0000 0000 0000 0000; 0000 0000 1110 0000; 0000 0000 1110 1110. -/
theorem test_decode_family_0 : decodeWord 0b0000000000000000 = .instr .nop ∧
    decodeWord 0b0000000011100000 = .instr .cls ∧ decodeWord 0b0000000011101110 = .instr .ret := by decide

/-- Formats FA: op, NNN = 0xABC, for the families 1, 2, A and B. -/
theorem test_decode_address_forms : decodeWord 0b0001101010111100 = .instr (.jp 0xABC) ∧
    decodeWord 0b0010101010111100 = .instr (.call 0xABC) ∧ decodeWord 0b1010101010111100 = .instr (.ldI 0xABC) ∧
    decodeWord 0b1011101010111100 = .instr (.jpV0 0xABC) := by decide

/-- Formats FI: op, X = 3, NN = 0x95, for the families 3, 4, 6, 7 and C. -/
theorem test_decode_immediate_forms : decodeWord 0b0011001110010101 = .instr (.seImm 3 0x95) ∧
    decodeWord 0b0100001110010101 = .instr (.sneImm 3 0x95) ∧
    decodeWord 0b0110001110010101 = .instr (.ldImm 3 0x95) ∧
    decodeWord 0b0111001110010101 = .instr (.addImm 3 0x95) ∧
    decodeWord 0b1100001110010101 = .instr (.rnd 3 0x95) := by decide

/-- Families 5, 9 and D: op, X = 10, Y = 7, then the fixed 0000, or N = 5. -/
theorem test_decode_register_forms : decodeWord 0b0101101001110000 = .instr (.seReg 10 7) ∧
    decodeWord 0b1001101001110000 = .instr (.sneReg 10 7) ∧
    decodeWord 0b1101101001110101 = .instr (.drw 10 7 5) := by decide

/-- Family 8, part one: 1000, X = 10, Y = 7, the operations 0 to 4. -/
theorem test_decode_family_8_low : decodeWord 0b1000101001110000 = .instr (.ldReg 10 7) ∧
    decodeWord 0b1000101001110001 = .instr (.orReg 10 7) ∧ decodeWord 0b1000101001110010 = .instr (.andReg 10 7) ∧
    decodeWord 0b1000101001110011 = .instr (.xorReg 10 7) ∧
    decodeWord 0b1000101001110100 = .instr (.addReg 10 7) := by decide

/-- Family 8, part two: 1000, X = 10, Y = 7, the operations 5, 6, 7 and 14. -/
theorem test_decode_family_8_high : decodeWord 0b1000101001110101 = .instr (.subReg 10 7) ∧
    decodeWord 0b1000101001110110 = .instr (.shr 10 7) ∧ decodeWord 0b1000101001110111 = .instr (.subnReg 10 7) ∧
    decodeWord 0b1000101001111110 = .instr (.shl 10 7) := by decide

/-- Family E: 1110, X = 5, then 9E or A1. -/
theorem test_decode_family_E : decodeWord 0b1110010110011110 = .instr (.skp 5) ∧
    decodeWord 0b1110010110100001 = .instr (.sknp 5) := by decide

/-- Family F, part one: 1111, X = 9, then 07, 0A, 15, 18. -/
theorem test_decode_family_F_timers : decodeWord 0b1111100100000111 = .instr (.ldVxDt 9) ∧
    decodeWord 0b1111100100001010 = .instr (.ldVxK 9) ∧ decodeWord 0b1111100100010101 = .instr (.ldDtVx 9) ∧
    decodeWord 0b1111100100011000 = .instr (.ldStVx 9) := by decide

/-- Family F, part two: 1111, X = 9, then 1E, 29, 33, 55, 65. -/
theorem test_decode_family_F_memory : decodeWord 0b1111100100011110 = .instr (.addIVx 9) ∧
    decodeWord 0b1111100100101001 = .instr (.ldFVx 9) ∧ decodeWord 0b1111100100110011 = .instr (.ldBVx 9) ∧
    decodeWord 0b1111100101010101 = .instr (.ldMemVx 9) ∧
    decodeWord 0b1111100101100101 = .instr (.ldVxMem 9) := by decide

/-- Illegal words of each family of R94, at the edges of their ranges. -/
theorem test_illegal_words : decodeWord 0x0001 = .unimplemented 0x0001 ∧ decodeWord 0x0FFF = .unimplemented 0x0FFF ∧
    decodeWord 0x5121 = .unimplemented 0x5121 ∧ decodeWord 0x8128 = .unimplemented 0x8128 ∧
    decodeWord 0x800F = .unimplemented 0x800F ∧ decodeWord 0x9001 = .unimplemented 0x9001 ∧
    decodeWord 0xE09F = .unimplemented 0xE09F ∧ decodeWord 0xF000 = .unimplemented 0xF000 := by decide

/-- No two rows of the opcode map match one word (R93): two rows differ where both of their masks are 1. -/
theorem test_rows_do_not_overlap :
    opcodeTable.Pairwise (fun r q => r.pattern &&& q.mask &&& r.mask ≠ q.pattern &&& r.mask &&& q.mask) := by decide

/-! ### Single steps: the vectors of spec/95_test_vectors.md -/

/-- The state after a step that runs the given word at PC. -/
def after (s : State) (w : Nat) : Option State :=
  match step (s.withFetchWord 16 w) with
  | .next t => some t
  | .fault _ => none
  | .refused _ => none

/-- The error of a step that runs the given word at PC. -/
def errorOf (s : State) (w : Nat) : Option Fault :=
  match step (s.withFetchWord 16 w) with
  | .next _ => none
  | .fault e => some e
  | .refused _ => none

/-- The reset state with two registers set. -/
def withRegs (x : RegIx) (a : Byte) (y : RegIx) (b : Byte) : State := (State.reset.setV x a).setV y b

/-- The reset state with a full stack. -/
def fullStack : State := { State.reset with sp := 16 }

/-- The reset state with one stacked address. -/
def oneCall : State := { State.reset with sp := 1, stack := State.reset.stack.set 0 0x456 }

/-- CV1. -/
theorem test_nop : (after State.reset 0x0000).map (·.pc) = some 0x202 := by decide
/-- DV1. -/
theorem test_cls : (after ((State.reset.setFb (togglePixel State.reset.fb 3 4)).setV 15 5) 0x00E0).map
    (fun t => (t.pixel 3 4, t.getV 15)) = some (false, 5) := by decide
/-- CV6. -/
theorem test_ret : (after oneCall 0x00EE).map (fun t => (t.sp.val, t.pc, t.stack[0])) = some (0, 0x456, 0x456) := by decide
/-- S16. -/
theorem test_ret_empty : errorOf State.reset 0x00EE = some .stackUnderflow := by decide
/-- CV2. -/
theorem test_jp : (after State.reset 0x1ABC).map (·.pc) = some 0xABC := by decide
/-- CV4. -/
theorem test_call : (after State.reset 0x2345).map (fun t => (t.stack[0], t.sp.val, t.pc)) = some (0x202, 1, 0x345) := by decide
/-- CV5. -/
theorem test_call_full : errorOf fullStack 0x2345 = some .stackOverflow := by decide
/-- CV7, CV8. -/
theorem test_seImm : (after (State.reset.setV 3 0x10) 0x3310).map (·.pc) = some 0x204 ∧
    (after (State.reset.setV 3 0x11) 0x3310).map (·.pc) = some 0x202 := by decide
/-- CV9. -/
theorem test_sneImm : (after (State.reset.setV 3 0x11) 0x4310).map (·.pc) = some 0x204 := by decide
/-- CV10. -/
theorem test_seReg : (after (withRegs 1 7 2 7) 0x5120).map (·.pc) = some 0x204 := by decide
/-- AV1. -/
theorem test_ldImm : (after State.reset 0x6A42).map (·.getV 10) = some 0x42 := by decide
/-- S4. -/
theorem test_addImm : (after (withRegs 1 0xFF 15 0x5A) 0x7101).map (fun t => (t.getV 1, t.getV 15)) = some (0, 0x5A) := by decide
/-- AV3. -/
theorem test_ldReg : (after (State.reset.setV 2 9) 0x8120).map (·.getV 1) = some 9 := by decide
/-- AV4. -/
theorem test_orReg : (after ((withRegs 1 0x0F 2 0xF0).setV 15 7) 0x8121).map
    (fun t => (t.getV 1, t.getV 15)) = some (0xFF, 7) := by decide
/-- AV5. -/
theorem test_andReg : (after (withRegs 1 0x3C 2 0x0F) 0x8122).map (·.getV 1) = some 0x0C := by decide
/-- R175, its example. -/
theorem test_xorReg : (after (withRegs 1 0xFF 2 0x0F) 0x8123).map (·.getV 1) = some 0xF0 := by decide
/-- S5. -/
theorem test_addReg : (after (withRegs 1 0xFF 2 1) 0x8124).map (fun t => (t.getV 1, t.getV 15)) = some (0, 1) := by decide
/-- AV8. -/
theorem test_addReg_flag_wins : (after (withRegs 15 0xFF 1 1) 0x8F14).map (·.getV 15) = some 1 := by decide
/-- S8. -/
theorem test_subReg : (after (withRegs 1 1 2 5) 0x8125).map (fun t => (t.getV 1, t.getV 15)) = some (0xFC, 0) := by decide
/-- AV10. -/
theorem test_subReg_equal : (after (withRegs 1 5 2 5) 0x8125).map (fun t => (t.getV 1, t.getV 15)) = some (0, 1) := by decide
/-- AV13. -/
theorem test_shr : (after (withRegs 1 2 2 0xFF) 0x8126).map (fun t => (t.getV 1, t.getV 15)) = some (1, 0) := by decide
/-- AV16. -/
theorem test_subnReg : (after (withRegs 1 5 2 1) 0x8127).map (fun t => (t.getV 1, t.getV 15)) = some (0xFC, 0) := by decide
/-- AV17. -/
theorem test_shl : (after (State.reset.setV 1 0x80) 0x810E).map (fun t => (t.getV 1, t.getV 15)) = some (0, 1) := by decide
/-- CV13, CV14. -/
theorem test_sneReg : (after (withRegs 1 7 2 8) 0x9120).map (·.pc) = some 0x204 ∧
    (after State.reset 0x9110).map (·.pc) = some 0x202 := by decide
/-- MV1. -/
theorem test_ldI : (after State.reset 0xA2F0).map (·.i) = some 0x2F0 := by decide
/-- CV16. -/
theorem test_jpV0 : (after (State.reset.setV 0 0xFF) 0xBFFF).map (·.pc) = some 0x10FE := by decide
/-- AV21: whatever byte is drawn. -/
theorem test_rnd_masks_all (s : State) (x : RegIx) : ∃ t, exec (.rnd x 0) s = .next t ∧ t.getV x = 0 :=
  ⟨_, rfl, by simp [State.drawRandom]⟩
/-- DV7: the row offset moves y only, the column offset x only. -/
theorem test_drw_offsets : (after (((withRegs 0 10 1 5).setI 0x300).writeBytes 0x300 [0x80, 0x40]) 0xD012).map
    (fun t => (t.pixel 10 5, t.pixel 11 6, t.pixel 11 5, t.pixel 10 6)) = some (true, true, false, false) := by decide
/-- DV2 and DV3: wraparound of the origin and of a pixel. -/
theorem test_drw_wraps : (after (((withRegs 0 70 1 33).setI 0x300).writeBytes 0x300 [0x80]) 0xD011).map
      (fun t => (t.pixel 6 1, t.getV 15)) = some (true, 0) ∧
    (after (((withRegs 0 60 1 0).setI 0x300).writeBytes 0x300 [0xFF]) 0xD011).map
      (fun t => (t.pixel 63 0, t.pixel 3 0, t.pixel 4 0)) = some (true, true, false) := by decide
/-- KV1, KV2. -/
theorem test_skp : (after ((State.reset.setV 5 3).setKey 3 true) 0xE59E).map (·.pc) = some 0x204 ∧
    (after (State.reset.setV 5 3) 0xE59E).map (·.pc) = some 0x202 := by decide
/-- KV4. -/
theorem test_skp_no_such_key : errorOf (State.reset.setV 5 16) 0xE59E = some (.invalidKeyIndex 16) := by decide
/-- KV3. -/
theorem test_sknp : (after (State.reset.setV 5 3) 0xE5A1).map (·.pc) = some 0x204 := by decide
/-- KV8. -/
theorem test_ldVxDt : (after (State.reset.setDt 0x3C) 0xF007).map (·.getV 0) = some 0x3C := by decide
/-- KV5. -/
theorem test_ldVxK_held : (after ((State.reset.setKey 9 true).setKey 2 true) 0xF30A).map
    (fun t => (t.getV 3, t.pc, t.mode)) = some (2, 0x202, .running) := by decide
/-- KV6. -/
theorem test_ldVxK_waits : (after State.reset 0xFF0A).map (fun t => (t.pc, t.mode)) =
    some (0x200, .waitingForKey 15) := by decide
/-- KV9. -/
theorem test_ldDtVx : (after (State.reset.setV 1 60) 0xF115).map (·.dt) = some 60 := by decide
/-- KV10. -/
theorem test_ldStVx : (after (State.reset.setV 1 1) 0xF118).map (·.st) = some 1 := by decide
/-- MV2. -/
theorem test_addIVx : (after ((State.reset.setI 0xFFFF).setV 0 1) 0xF01E).map (·.i) = some 0 := by decide
/-- MV3, MV4. -/
theorem test_ldFVx : (after (State.reset.setV 4 0x0A) 0xF429).map (·.i) = some 0x032 ∧
    (after (State.reset.setV 15 0x10) 0xFF29).map (·.i) = some 0x050 := by decide
/-- MV5. -/
theorem test_ldBVx : (after ((State.reset.setI 0xFFD).setV 0 255) 0xF033).map
    (fun t => [0xFFD, 0xFFE, 0xFFF].map t.readByte) = some [2, 5, 5] := by decide
/-- MV6. -/
theorem test_ldBVx_out : errorOf ((State.reset.setI 0xFFE).setV 0 255) 0xF033 = some .outOfBounds := by decide
/-- MV9. -/
theorem test_ldMemVx : (after ((State.reset.setI 0xFF0).setV 15 9) 0xFF55).map (fun t => (t.readByte 0xFFF, t.i)) =
    some (9, 0xFF0) := by decide
/-- MV10. -/
theorem test_ldMemVx_out : errorOf (State.reset.setI 0xFF1) 0xFF55 = some .outOfBounds := by decide
/-- MV14: glyph 0 of the font. -/
theorem test_ldVxMem : (after State.reset 0xF465).map (fun t => [0, 1, 2, 3, 4, 5].map t.getV) =
    some [0xF0, 0x90, 0x90, 0x90, 0xF0, 0] := by decide
/-- MV13. -/
theorem test_ldVxMem_out : errorOf (State.reset.setI 0xFF1) 0xFF65 = some .outOfBounds := by decide
/-- EV3: fetch at an odd address. -/
theorem test_fetch_odd : (after (State.reset.setPc 0x201) 0x6007).map (fun t => (t.getV 0, t.pc)) = some (7, 0x203) := by decide
/-- KV11, KV12, KV13. -/
theorem test_ticks : (hostTick State.reset).2 = false ∧ (hostTick State.reset).1.dt = 0 ∧
    (hostTick (State.reset.setSt 2)).2 = false ∧ (hostTick (State.reset.setSt 2)).1.st = 1 ∧
    (hostTick (State.reset.setSt 1)).2 = true ∧ (hostTick (State.reset.setDt 5)).1.dt = 4 := by decide
/-- S2. -/
theorem test_load : (call (.load [0x12, 0x00]) State.reset).1.mem = [(0x200, 0x12)] ∧
    (call (.load [0x12, 0x00]) State.reset).2 = .ok := by decide

/-! ### Witnesses: the hypotheses of the statements are met -/

/-- A machine waiting for a key at the FX0A it stands on. -/
def waiting : State := (State.reset.withFetchWord 16 0xF30A).setMode (.waitingForKey 3)

/-- The reset state with PC on the last byte of memory, where nothing can be fetched (EV1). -/
def atEnd : State := State.reset.setPc 0xFFF

theorem witness_DecodeOfEncode : (Instr.drw 15 15 15).wellFormed = true ∧ (Instr.drw 0 0 0).wellFormed = true ∧
    (Instr.shl 15 15).wellFormed = true := by decide

theorem witness_EncodeOfDecode : decodeWord 0x0000 = .instr .nop ∧ decodeWord 0xFF65 = .instr (.ldVxMem 15) := by decide

/-- Each clause of R94's list, at the first and last word of its range. -/
theorem witness_IllegalWordsExactly :
    ([0x0001, 0x0FFF, 0x5001, 0x5FFF, 0x8008, 0x8FFF] : List Word).all (fun w => decodeWord w == .unimplemented w) = true ∧
    ([0x9001, 0x9FFF, 0xE000, 0xEFFF, 0xF000, 0xFFFF] : List Word).all (fun w => decodeWord w == .unimplemented w) = true := by
  decide

theorem witness_DecoderFollowsOpcodeMap : decodeWord 0xE0A1 = .instr (.sknp 0) ∧
    (⟨"SKNP_VX", 0xF0FF, 0xE0A1⟩ : OpcodeRow) ∈ opcodeTable ∧
    (⟨"SKNP_VX", 0xF0FF, 0xE0A1⟩ : OpcodeRow).covers 0xE0A1 = true := by decide

/-- Each of the four clauses: waiting, no fetch, an illegal word (EV4), an instruction. -/
theorem witness_StepRunsDecodedInstruction : waiting.mode = .waitingForKey 3 ∧
    (atEnd.mode = .running ∧ atEnd.fetchWord = none) ∧
    ((State.reset.withFetchWord 16 0x0123).mode = .running ∧
      (State.reset.withFetchWord 16 0x0123).fetchWord = some 0x0123 ∧ decodeWord 0x0123 = .unimplemented 0x0123) ∧
    (State.reset.mode = .running ∧ State.reset.fetchWord = some 0x0000 ∧ decodeWord 0x0000 = .instr .nop) := by decide

/-- The last PC that can be fetched from and the first that cannot. -/
theorem witness_FetchReadsTwoBytesBigEndian : (State.reset.setPc 0xFFE).pc.toNat + 1 < 4096 ∧
    4096 ≤ (State.reset.setPc 0xFFF).pc.toNat + 1 := by decide

theorem witness_PlacedWordRunsNext : State.reset.mem.wf ∧ decodeTableWord 16 0xFF65 = some (.ldVxMem 15) := by decide

/-- Each error of an instruction is raised somewhere, at the edge of its condition. -/
theorem witness_InstructionsFailExactlyWhere :
    exec (.call 0) fullStack = .fault .stackOverflow ∧ exec .ret State.reset = .fault .stackUnderflow ∧
    exec (.skp 5) (State.reset.setV 5 16) = .fault (.invalidKeyIndex 16) ∧
    exec (.sknp 5) (State.reset.setV 5 16) = .fault (.invalidKeyIndex 16) ∧
    exec (.drw 0 0 1) (State.reset.setI 0x1000) = .fault .outOfBounds ∧
    exec (.ldBVx 0) (State.reset.setI 0xFFE) = .fault .outOfBounds ∧
    exec (.ldMemVx 0) (State.reset.setI 0x1000) = .fault .outOfBounds ∧
    exec (.ldVxMem 15) (State.reset.setI 0xFF1) = .fault .outOfBounds := ⟨rfl, rfl, rfl, rfl, rfl, rfl, rfl, rfl⟩

/-- An error of each failing call: step, load, set_key. -/
theorem witness_ErrorsLeaveTheState : step atEnd = .fault .outOfBounds ∧ (call .step atEnd).2 = .error .outOfBounds ∧
    (∀ bytes : List Byte, bytes.length = 3585 → hostLoad bytes State.reset = .fault .loadTooLarge) ∧
    hostSetKey 16 true State.reset = .fault (.invalidKeyIndex 16) :=
  ⟨rfl, by decide, fun bytes h => if_pos (by rw [h]; decide), rfl⟩

theorem witness_FailedStepFailsAgain : (call .step atEnd).2 = .error .outOfBounds := by decide

/-- Each of the four skips, with a condition that holds and one that does not. -/
theorem witness_StepOverSkipAdvancesByFourOrTwo :
    (State.reset.withFetchWord 16 0x3300).fetchWord = some (encode (.seImm 3 0)) ∧ State.reset.getV 3 = 0 ∧
    (State.reset.withFetchWord 16 0x4300).fetchWord = some (encode (.sneImm 3 0)) ∧
    (State.reset.withFetchWord 16 0x5120).fetchWord = some (encode (.seReg 1 2)) ∧ State.reset.getV 1 = State.reset.getV 2 ∧
    (State.reset.withFetchWord 16 0x9120).fetchWord = some (encode (.sneReg 1 2)) ∧ State.reset.mode = .running := by decide

/-- The last free slot and the full stack. -/
theorem witness_CallPushesReturnAddress : ({ State.reset with sp := 15 } : State).sp.val < 16 ∧ fullStack.sp.val = 16 := by decide

/-- One entry, a full stack, and an empty one. -/
theorem witness_ReturnPopsReturnAddress : oneCall.sp.val = 0 + 1 ∧ fullStack.sp.val = 15 + 1 ∧ State.reset.sp.val = 0 := by decide

theorem witness_ReturnComesBackAfterCall :
    ∃ t : State, exec (.call 0x345) oneCall = .next t ∧ t.sp.val = 2 ∧ t.stack[0] = 0x456 := ⟨_, rfl, by decide⟩

/-- A destination below VF meets the hypothesis of the result clauses; VF itself is the flag clause's case. -/
theorem witness_flag_clauses : (14 : RegIx) ≠ 15 ∧ (exec (.addReg 14 0) (withRegs 14 0xFF 0 1)) =
    .next (((withRegs 14 0xFF 0 1).setV 14 0).setV 15 1) := ⟨by decide, rfl⟩

/-- The last I that FX33 can store at and the first that it cannot. -/
theorem witness_BcdStoresDecimalDigits : State.reset.mem.wf ∧ (State.reset.setI 0xFFD).i.toNat + 2 < 4096 ∧
    4096 ≤ (State.reset.setI 0xFFE).i.toNat + 2 := by decide

/-- The last I that FF55 can store at, the first that it cannot, and the last one for F055. -/
theorem witness_StoreRegistersToMemory : State.reset.mem.wf ∧ (State.reset.setI 0xFF0).i.toNat + (15 : RegIx).val < 4096 ∧
    4096 ≤ (State.reset.setI 0xFF1).i.toNat + (15 : RegIx).val ∧
    (State.reset.setI 0xFFF).i.toNat + (0 : RegIx).val < 4096 := by decide

theorem witness_LoadRegistersFromMemory : (State.reset.setI 0xFF0).i.toNat + (15 : RegIx).val < 4096 ∧
    4096 ≤ (State.reset.setI 0xFF1).i.toNat + (15 : RegIx).val := by decide

/-- FF55 at the last place it fits, and a state with that memory and I. -/
theorem witness_StoreThenLoadRestoresRegisters : ∃ t u : State, (State.reset.setI 0xFF0).mem.wf ∧
    exec (.ldMemVx 15) (State.reset.setI 0xFF0) = .next t ∧ u.mem = t.mem ∧ u.i = (State.reset.setI 0xFF0).i :=
  ⟨_, State.reset.setI 0xFF0, by decide, rfl, rfl, rfl⟩

/-- The state in which F155 overwrites the word after itself (P5). -/
def selfModifying : State := ((withRegs 0 0x6B 1 0x2A).setI 0x202).withFetchWord 16 0xF155

theorem witness_StoreIsSeenByTheNextFetch : selfModifying.mem.wf ∧ selfModifying.mode = .running ∧
    selfModifying.fetchWord = some (encode (.ldMemVx 1)) ∧ 1 ≤ (1 : RegIx).val ∧
    selfModifying.i.toNat = selfModifying.pc.toNat + 2 ∧
    (match step selfModifying with | .next t => t.fetchWord | _ => none) = some 0x6B2A := by decide

theorem witness_MemoryFormIsCanonical : Memory.wf [(0, 0x00), (79, 0x00), (4095, 0x01)] ∧
    ¬Memory.wf [(0, 0xF0)] ∧ ¬Memory.wf [(4096, 0x01)] ∧ ¬Memory.wf [(81, 0x01), (80, 0x01)] := by decide

/-- N = 0 with I outside memory, the last I for N = 15, and the first I that fails; a 1 bit that falls on a pixel. -/
theorem witness_DrawInvertsSpritePixels :
    (0 < 16 ∧ (0 = 0 ∨ (State.reset.setI 0xFFFF).i.toNat + 0 - 1 < 4096) ∧
      exec (.drw 0 1 0) ((State.reset.setI 0xFFFF).setV 15 9) = .next (State.reset.setI 0xFFFF)) ∧
    (15 < 16 ∧ (State.reset.setI 0xFF1).i.toNat + 15 - 1 < 4096) ∧
    (0 < 15 ∧ 4096 ≤ (State.reset.setI 0xFF2).i.toNat + 15 - 1) ∧
    SpriteTouches State.reset 0 1 1 0 0 ∧ State.reset.pixel 0 0 = false :=
  ⟨⟨by decide, .inl rfl, rfl⟩, by decide, by decide, ⟨0, 0, by decide⟩, by decide⟩

theorem witness_DrawingTwiceRestoresScreen : ∃ t : State, exec (.drw 0 1 5) State.reset = .next t ∧
    t.getV 0 = State.reset.getV 0 ∧ t.getV 1 = State.reset.getV 1 := ⟨_, rfl, by decide, by decide⟩

/-- The greatest key index and the least that is none. -/
theorem witness_KeySkipsTestTheLevel : ((State.reset.setV 5 15).getV 5).toNat < 16 ∧
    15 < ((State.reset.setV 5 16).getV 5).toNat := by decide

/-- The lowest of two pressed keys, the last key, and no key (KV5, KV6). -/
theorem witness_KeyWaitTakesLowestKeyOrWaits : IsLowestPressed ((State.reset.setKey 9 true).setKey 2 true) 2 ∧
    IsLowestPressed (State.reset.setKey 15 true) 15 ∧ NoKeyPressed State.reset := by
  unfold IsLowestPressed NoKeyPressed; decide

theorem witness_PollTakesLowestKeyOrKeepsWaiting : waiting.mode = .waitingForKey 3 ∧
    IsLowestPressed (waiting.setKey 0 true) 0 ∧ NoKeyPressed waiting := by
  unfold IsLowestPressed NoKeyPressed; decide

theorem witness_PollEqualsReexecution : waiting.mode = .waitingForKey 3 ∧
    waiting.fetchWord = some (encode (.ldVxK 3)) := by decide

theorem witness_WaitLastsUntilAKeyIsPressed : waiting.mode = .waitingForKey 3 ∧ NoKeyPressed waiting ∧
    ∀ c ∈ [HostCall.step, .tickTimers, .framebuffer, .step], IsIdleCall c = true := by
  unfold NoKeyPressed; decide

theorem witness_TickCommutesWithOtherInstructions : ∀ x, Instr.nop ≠ .ldVxDt x ∧ Instr.nop ≠ .ldDtVx x ∧
    Instr.nop ≠ .ldStVx x := by decide

theorem witness_ResetGivesInitialState : hostReset waiting = State.reset ∧ (79 < 80 ∧ 80 ≤ 80 ∧ 4095 < 4096) :=
  ⟨rfl, by decide⟩

/-- The longest image that fits and the shortest that does not (S3). -/
theorem witness_LoadPlacesImageAtOrigin : State.reset.mem.wf ∧ (List.replicate 3584 (0x11 : Byte)).length ≤ 3584 ∧
    3584 < (List.replicate 3585 (0x11 : Byte)).length :=
  ⟨by decide, by rw [List.length_replicate], by rw [List.length_replicate]; decide⟩

/-- The greatest index and the least that is none; another key. -/
theorem witness_SetKeyChangesOneKey : 15 < 16 ∧ 15 < 16 ∧ (0 : KeyIx).val ≠ 15 := by decide

/-- A running and a waiting state that meet the step invariant and step. -/
theorem witness_StepKeepsInvariant : StepInv waiting ∧ step waiting = .next waiting ∧
    StepInv (State.reset.setPc 0x300) ∧ step (State.reset.setPc 0x300) = .next (State.reset.setPc 0x302) := by
  have hw : ∀ x : RegIx, waiting.mode = .waitingForKey x → waiting.fetchWord = some (encode (.ldVxK x)) := by decide
  exact ⟨⟨by decide, by decide, by decide, hw⟩, rfl, ⟨by decide, by decide, by decide, nofun⟩, rfl⟩

theorem witness_EveryScheduleKeepsInvariant : CallInv waiting :=
  ⟨by decide, by decide, by decide, fun _ _ => by decide⟩

/-- One instruction for each component that a step can change. -/
theorem witness_OnlyNamedInstructionsChangeComponents :
    exec (.ldDtVx 0) (State.reset.setV 0 1) = .next ((State.reset.setV 0 1).setDt 1) ∧
    exec (.ldStVx 0) (State.reset.setV 0 1) = .next ((State.reset.setV 0 1).setSt 1) ∧
    exec (.ldI 1) State.reset = .next (State.reset.setI 1) := ⟨rfl, rfl, rfl⟩

theorem witness_FlagRegisterChangesOnlyByNamedInstructions : exec (.ldImm 15 1) State.reset = .next (State.reset.setV 15 1) ∧
    (State.reset.setV 15 1).getV 15 ≠ State.reset.getV 15 := ⟨rfl, by decide⟩

theorem witness_SoundTimerIsUnobservable : SameButSound State.reset (State.reset.setSt 9) := rfl

theorem witness_FreeStackSlotsAreUnobservable : SameButFreeSlots oneCall { oneCall with stack := oneCall.stack.set 1 0x999 } :=
  ⟨rfl, by decide⟩

/-- Two different positions in the random input where no CXNN executes, and a state that does execute CXNN. -/
theorem witness_RandomnessEntersOnlyThroughCxnn :
    (SameMachineState State.reset { State.reset with rngDraws := 7 } ∧ ¬RunsRandom State.reset) ∧
    RunsRandom (State.reset.withFetchWord 16 0xC30F) := by
  refine ⟨⟨rfl, ?_⟩, by decide, 0xC30F, 3, 0x0F, by decide, by decide⟩
  rintro ⟨-, w, x, nn, hf, hd⟩
  have h0 : State.reset.fetchWord = some 0 := by decide
  rw [h0] at hf
  cases hf
  revert hd
  exact nofun

end Sys2Proof.Tests
end

section
/-! Control transfer: the four register skips (spec/41_control.md, R147 to R150). -/

namespace Sys2Proof.Machine

/-- R140: PC moves on by one more instruction width, modulo 2^16, exactly when the skip is taken. -/
theorem State.skipIf_pc_toNat (s : State) (c : Bool) :
    (s.skipIf c).pc.toNat = if c = true then (s.pc.toNat + 2) % 65536 else s.pc.toNat := by
  rw [State.skipIf_eq, State.setPc_pc]
  cases c
  case false => rfl
  case true => exact BitVec.toNat_add s.pc 2

/-- What an instruction does that answers the skip on a Boolean test `c` of the condition `p`. -/
theorem skip_of_exec_eq {i : Instr} {s : State} {c : Bool} {p : Prop} [Decidable p]
    (hexec : exec i s = .next (s.skipIf c)) (hc : c = true ↔ p) :
    ∃ t, exec i s = .next t ∧ Frame { pc := true } s t ∧
      t.pc.toNat = if p then (s.pc.toNat + 2) % 65536 else s.pc.toNat :=
  ⟨s.skipIf c, hexec, State.skipIf_frame s c, by simp only [State.skipIf_pc_toNat, hc]⟩

/-- Settles O14: each skip is `skipIf` on the Boolean test of its condition (R147 to R150). -/
theorem skipsMovePcByTwoIfTheConditionHolds : Obligations.SkipsMovePcByTwoIfTheConditionHolds := by
  intro s x y nn
  have hseImm : exec (.seImm x nn) s = .next (s.skipIf (s.getV x == nn)) := rfl
  have hsneImm : exec (.sneImm x nn) s = .next (s.skipIf (s.getV x != nn)) := rfl
  have hseReg : exec (.seReg x y) s = .next (s.skipIf (s.getV x == s.getV y)) := rfl
  have hsneReg : exec (.sneReg x y) s = .next (s.skipIf (s.getV x != s.getV y)) := rfl
  exact ⟨skip_of_exec_eq hseImm beq_iff_eq, skip_of_exec_eq hsneImm bne_iff_ne,
    skip_of_exec_eq hseReg beq_iff_eq, skip_of_exec_eq hsneReg bne_iff_ne⟩

end Sys2Proof.Machine
end

section
/-! Registers and ALU: the loads, the logic operations and the immediate addition (spec/42_alu.md, R170 to R175). -/

namespace Sys2Proof.Machine

/-- What an instruction does that answers the write of `b` to VX: the result, and the frame that leaves VF alone unless
X = F. -/
theorem result_of_exec_eq_setV {i : Instr} {s : State} {x : RegIx} {b : Byte} (hexec : exec i s = .next (s.setV x b)) :
    ∃ t, exec i s = .next t ∧ t.getV x = b ∧ Frame { regs := [x] } s t :=
  ⟨s.setV x b, hexec, State.setV_getV_same s x b, Frame.setV s x b⟩

/-- Settles O19: each of the five is one write of its result to VX (R170, R172 to R175). -/
theorem loadsAndLogicWriteVxOnly : Obligations.LoadsAndLogicWriteVxOnly := by
  intro s x y nn
  have hldImm : exec (.ldImm x nn) s = .next (s.setV x nn) := rfl
  have hldReg : exec (.ldReg x y) s = .next (s.setV x (s.getV y)) := rfl
  have horReg : exec (.orReg x y) s = .next (s.setV x (s.getV x ||| s.getV y)) := rfl
  have handReg : exec (.andReg x y) s = .next (s.setV x (s.getV x &&& s.getV y)) := rfl
  have hxorReg : exec (.xorReg x y) s = .next (s.setV x (s.getV x ^^^ s.getV y)) := rfl
  exact ⟨result_of_exec_eq_setV hldImm, result_of_exec_eq_setV hldReg, result_of_exec_eq_setV horReg,
    result_of_exec_eq_setV handReg, result_of_exec_eq_setV hxorReg⟩

/-- Settles O20: one write of the byte sum to VX, which is the sum modulo 256 (R171). -/
theorem addImmediateSetsNoFlag : Obligations.AddImmediateSetsNoFlag := by
  intro s x nn
  have haddImm : exec (.addImm x nn) s = .next (s.setV x (s.getV x + nn)) := rfl
  obtain ⟨t, hexec, hresult, hframe⟩ := result_of_exec_eq_setV haddImm
  have hsum : (t.getV x).toNat = ((s.getV x).toNat + nn.toNat) % 256 := by
    rw [hresult]
    exact BitVec.toNat_add (s.getV x) nn
  exact ⟨t, hexec, hsum, hframe⟩

end Sys2Proof.Machine
end

section
/-! Index register and memory: the writes of I, the stores and the load (spec/43_index_memory.md, R210 to R215). -/

namespace Sys2Proof.Machine

/-- What an instruction does that answers the write of `w` to I. -/
theorem index_of_exec_eq_setI {i : Instr} {s : State} {w : Word} {n : Nat} (hexec : exec i s = .next (s.setI w))
    (hw : w.toNat = n) : ∃ t, exec i s = .next t ∧ t.i.toNat = n ∧ Frame { index := true } s t :=
  ⟨s.setI w, hexec, hw, Frame.setI s w⟩

/-- R212: five times the full byte still fits in I, so nothing wraps. -/
theorem glyphAddr_toNat (v : Byte) : (glyphAddr v).toNat = v.toNat * 5 := by
  have hv : v.toNat < 256 := v.isLt
  simp only [glyphAddr, BitVec.toNat_ofNat]
  omega

/-- Settles O25: each of the three is one write to I (R210 to R212). -/
theorem indexRegisterWrites : Obligations.IndexRegisterWrites := by
  intro s x nnn
  have hldI : exec (.ldI nnn) s = .next (s.setI (zext16 nnn)) := rfl
  have haddIVx : exec (.addIVx x) s = .next (s.setI (s.i + byteToWord (s.getV x))) := rfl
  have hldFVx : exec (.ldFVx x) s = .next (s.setI (glyphAddr (s.getV x))) := rfl
  have hsum : (s.i + byteToWord (s.getV x)).toNat = (s.i.toNat + (s.getV x).toNat) % 65536 := by
    rw [BitVec.toNat_add, byteToWord_toNat]
  exact ⟨index_of_exec_eq_setI hldI (zext16_toNat nnn), index_of_exec_eq_setI haddIVx hsum,
    index_of_exec_eq_setI hldFVx (glyphAddr_toNat (s.getV x))⟩

/-- An access through I whose last byte is a valid address is carried out (R62). -/
theorem whenInMemory_iAddr_of_lt {s : State} {n : Nat} (o : Host.Outcome State Fault Refusal)
    (h : s.i.toNat + n < 4096) : whenInMemory (iAddr s 0) (n + 1) o = o :=
  whenInMemory_of _ _ o ((inMemory_iAddr s (n + 1)).mpr (.inr h))

/-- An access through I whose last byte is no valid address is OutOfBounds (R62). -/
theorem whenInMemory_iAddr_of_le {s : State} {n : Nat} (o : Host.Outcome State Fault Refusal)
    (h : 4096 ≤ s.i.toNat + n) : whenInMemory (iAddr s 0) (n + 1) o = .fault .outOfBounds := by
  refine whenInMemory_of_not _ _ o ?_
  rw [inMemory_iAddr]
  omega

/-- The `k`-th byte stored from I on is what its address reads as afterwards (R69). -/
theorem State.writeBytes_readByte_iAddr {s : State} {bs : List Byte} {k : Nat} (hwf : s.mem.wf) (hk : k < bs.length) :
    (s.writeBytes (iAddr s 0) bs).readByte (iAddr s k) = bs[k] := by
  have hsub : iAddr s k - iAddr s 0 = k := Nat.add_sub_cancel_left s.i.toNat k
  have hin : iAddr s 0 ≤ iAddr s k ∧ iAddr s k - iAddr s 0 < bs.length :=
    ⟨Nat.le_add_right s.i.toNat k, hsub.symm ▸ hk⟩
  rw [State.writeBytes_readByte _ _ _ _ hwf, dif_pos hin]
  simp only [hsub]

/-- A store of `n` bytes from I on writes the byte addresses of its access through I and nothing else. -/
theorem Frame.writeBytes_iAddrs {s : State} {bs : List Byte} {n : Nat} (hwf : s.mem.wf) (hlen : bs.length = n) :
    Frame { bytes := iAddrs s n } s (s.writeBytes (iAddr s 0) bs) := by
  subst hlen
  exact Frame.writeBytes s _ bs _ hwf fun a ha => (mem_iAddrs s bs.length a).mpr ha

/-- R213: a byte has at most three decimal digits, and each digit fits in a byte. -/
theorem bcdDigits_toNat (v : Byte) :
    ((bcdDigits v)[0]'(by simp)).toNat = v.toNat / 100 ∧ ((bcdDigits v)[1]'(by simp)).toNat = v.toNat / 10 % 10 ∧
      ((bcdDigits v)[2]'(by simp)).toNat = v.toNat % 10 := by
  have hv : v.toNat < 256 := v.isLt
  simp only [bcdDigits, List.getElem_cons_zero, List.getElem_cons_succ, BitVec.toNat_ofNat]
  omega

/-- Settles O26: a checked store of the three digits, read back one by one (R213). -/
theorem bcdStoresDecimalDigits : Obligations.BcdStoresDecimalDigits := by
  intro s x hwf
  have hexec : exec (.ldBVx x) s =
    whenInMemory (iAddr s 0) 3 (.next (s.writeBytes (iAddr s 0) (bcdDigits (s.getV x)))) := rfl
  have hread (k : Nat) (hk : k < (bcdDigits (s.getV x)).length) :
      ((s.writeBytes (iAddr s 0) (bcdDigits (s.getV x))).readByte (iAddr s k)).toNat = (bcdDigits (s.getV x))[k].toNat :=
    congrArg BitVec.toNat (State.writeBytes_readByte_iAddr hwf hk)
  have hframe := Frame.writeBytes_iAddrs hwf (bcdDigits_length (s.getV x))
  obtain ⟨hhundreds, htens, hones⟩ := bcdDigits_toNat (s.getV x)
  exact ⟨fun hfit => ⟨_, hexec.trans (whenInMemory_iAddr_of_lt _ hfit), (hread 0 _).trans hhundreds,
      (hread 1 _).trans htens, (hread 2 _).trans hones, hframe⟩,
    fun hout => hexec.trans (whenInMemory_iAddr_of_le _ hout)⟩

/-- Settles O27: a checked store of V0 .. VX, read back one by one (R214). -/
theorem storeRegistersToMemory : Obligations.StoreRegistersToMemory := by
  intro s x hwf
  have hexec : exec (.ldMemVx x) s =
    whenInMemory (iAddr s 0) (x.val + 1) (.next (s.writeBytes (iAddr s 0) (regsUpTo s x))) := rfl
  have hread (k : RegIx) (hk : k ≤ x) :
      (s.writeBytes (iAddr s 0) (regsUpTo s x)).readByte (iAddr s k.val) = s.getV k := by
    have hlen : k.val < (regsUpTo s x).length := by
      rw [regsUpTo_length]
      exact Nat.lt_succ_of_le hk
    rw [State.writeBytes_readByte_iAddr hwf hlen, regsUpTo_getElem]
  have hframe := Frame.writeBytes_iAddrs hwf (regsUpTo_length s x)
  exact ⟨fun hfit => ⟨_, hexec.trans (whenInMemory_iAddr_of_lt _ hfit), hread, hframe⟩,
    fun hout => hexec.trans (whenInMemory_iAddr_of_le _ hout)⟩

/-- A load of V0 .. VX writes those registers and nothing else. -/
theorem Frame.loadRegs (s : State) (x : RegIx) :
    Frame { regs := (List.finRange 16).filter (fun k => k ≤ x) } s (s.loadRegs x) := by
  constructor
  case regs =>
    intro r hr
    have hgt : ¬r ≤ x := by simpa using hr
    rw [State.loadRegs_getV, if_neg hgt]
  all_goals simp

/-- Settles O28: a checked load of V0 .. VX (R215). -/
theorem loadRegistersFromMemory : Obligations.LoadRegistersFromMemory := by
  intro s x
  have hexec : exec (.ldVxMem x) s = whenInMemory (iAddr s 0) (x.val + 1) (.next (s.loadRegs x)) := rfl
  have hload (k : RegIx) (hk : k ≤ x) : (s.loadRegs x).getV k = s.readByte (iAddr s k.val) := by
    rw [State.loadRegs_getV, if_pos hk]
  exact ⟨fun hfit => ⟨_, hexec.trans (whenInMemory_iAddr_of_lt _ hfit), hload, Frame.loadRegs s x⟩,
    fun hout => hexec.trans (whenInMemory_iAddr_of_le _ hout)⟩

end Sys2Proof.Machine
end

section
/-! Display: clearing the screen (spec/44_display.md, R240). -/

namespace Sys2Proof.Machine

/-- Once a framebuffer is installed, the screen shows that framebuffer. -/
@[simp] theorem State.setFb_pixel (s : State) (f : Framebuffer) (x : Fin Config.screenW) (y : Fin Config.screenH) :
    (s.setFb f).pixel x y = f[y][x] := rfl

@[simp] theorem clearFb_getElem (x : Fin Config.screenW) (y : Fin Config.screenH) : clearFb[y][x] = false := by
  simp only [clearFb, Fin.getElem_fin, Vector.getElem_replicate]

/-- Settles O32: one write of the all-false framebuffer, which is the whole frame (R240). -/
theorem clearScreen : Obligations.ClearScreen := by
  intro s
  have hexec : exec .cls s = .next (s.setFb clearFb) := rfl
  have hclear (x : Fin Config.screenW) (y : Fin Config.screenH) : (s.setFb clearFb).pixel x y = false :=
    (State.setFb_pixel s clearFb x y).trans (clearFb_getElem x y)
  exact ⟨s.setFb clearFb, hexec, hclear, Frame.setFb s clearFb⟩

end Sys2Proof.Machine
end

section
/-! Timers: the three loads between VX and the timers (spec/45_keys_timers.md, R263 to R265). -/

namespace Sys2Proof.Machine

/-- Settles O41: each of the three is one write, of DT to VX, of VX to DT or of VX to ST (R263 to R265). -/
theorem timerAccess : Obligations.TimerAccess := by
  intro s x
  have hldVxDt : exec (.ldVxDt x) s = .next (s.setV x s.dt) := rfl
  have hldDtVx : exec (.ldDtVx x) s = .next (s.setDt (s.getV x)) := rfl
  have hldStVx : exec (.ldStVx x) s = .next (s.setSt (s.getV x)) := rfl
  exact ⟨result_of_exec_eq_setV hldVxDt,
    ⟨_, hldDtVx, State.setDt_dt s (s.getV x), Frame.setDt s (s.getV x)⟩,
    ⟨_, hldStVx, State.setSt_st s (s.getV x), Frame.setSt s (s.getV x)⟩⟩

end Sys2Proof.Machine
end

section
/-! The host's operations: errors, the timer tick and the framebuffer (spec/60_exceptions.md, R301, R310, R325). -/

namespace Sys2Proof.Machine

/-- R301: an error goes to the host together with the state before the call. -/
theorem settle_of_eq_fault {o : Host.Outcome State Fault Refusal} {e : Fault} (before : State) (h : o = .fault e) :
    settle before o = (before, .error e) := by
  rw [h]
  rfl

/-- R301: an outcome that the host sees as an error leaves the state as it was. -/
theorem settle_fst_of_error {o : Host.Outcome State Fault Refusal} {before : State} {e : Fault}
    (h : (settle before o).2 = .error e) : (settle before o).1 = before := by
  cases o
  case next t => cases h
  case fault e' => rfl
  case refused r => rfl

/-- R301: only load, step and set_key can answer an error, and each of them answers through `settle`. -/
theorem call_fst_of_error {c : HostCall} {s : State} {e : Fault} (h : (call c s).2 = .error e) : (call c s).1 = s := by
  cases c
  case construct => cases h
  case reset => cases h
  case tickTimers => cases h
  case framebuffer => cases h
  case load bytes => exact settle_fst_of_error (o := hostLoad bytes s) h
  case step => exact settle_fst_of_error (o := step s) h
  case setKey k pressed => exact settle_fst_of_error (o := hostSetKey k pressed s) h

/-- Settles O11: the calls that can fail answer through `settle`, and CXNN always has a next state (R301). -/
theorem errorsLeaveTheState : Obligations.ErrorsLeaveTheState := by
  have hrnd (x : RegIx) (nn : Byte) (s : State) (e : Fault) : exec (.rnd x nn) s ≠ .fault e := by
    have hexec : exec (.rnd x nn) s = .next (s.drawRandom.2.setV x (s.drawRandom.1 &&& nn)) := rfl
    rw [hexec]
    exact nofun
  exact ⟨fun s _ => settle_of_eq_fault s, fun _ s _ => settle_of_eq_fault s, fun _ _ s _ => settle_of_eq_fault s,
    fun _ _ _ => call_fst_of_error, hrnd⟩

/-- R310, R311: counting a timer down is exact, since the subtraction is done only above 0. -/
theorem countDown_toNat (b : Byte) : (countDown b).toNat = if b.toNat > 0 then b.toNat - 1 else 0 := by
  rw [countDown]
  split
  case isTrue hpos => exact BitVec.toNat_sub_of_le (BitVec.le_def.mpr hpos)
  case isFalse => rfl

@[simp] theorem hostTick_dt (s : State) : (hostTick s).1.dt = countDown s.dt := rfl

/-- Settles O42: the tick counts DT down by one and stops at 0 (R310). -/
theorem tickDecrementsDelayTimer : Obligations.TickDecrementsDelayTimer := by
  intro s
  rw [hostTick_dt]
  exact countDown_toNat s.dt

/-- Settles O49: the call answers the framebuffer itself, whose entries are the pixels, with the state it was given
(R325). -/
theorem framebufferIsReadOnly : Obligations.FramebufferIsReadOnly := by
  intro s
  have hcall : call .framebuffer s = (s, .grid s.fb) := rfl
  rw [hcall]
  exact ⟨rfl, s.fb, rfl, fun _ _ => rfl⟩

end Sys2Proof.Machine
end

section
/-! Encoding: decoding and encoding are inverse, the illegal words, the opcode map (spec/30_encoding.md, R90 to R94). -/

namespace Sys2Proof

/-- Settles O1: the encoder's nibble1 selects the family, its fixed field the operation, and its fields are read back. -/
theorem decodeOfEncode : Obligations.DecodeOfEncode := by
  intro i hwf
  cases i
  case nop | cls | ret => rfl
  case jp nnn => simp [encode, decodeWord_1]
  case call nnn => simp [encode, decodeWord_2]
  case ldI nnn => simp [encode, decodeWord_A]
  case jpV0 nnn => simp [encode, decodeWord_B]
  case seImm x nn => simp [encode, decodeWord_3]
  case sneImm x nn => simp [encode, decodeWord_4]
  case ldImm x nn => simp [encode, decodeWord_6]
  case addImm x nn => simp [encode, decodeWord_7]
  case rnd x nn => simp [encode, decodeWord_C]
  case seReg x y => simp [encode, decodeWord_5]
  case sneReg x y => simp [encode, decodeWord_9]
  case drw x y n =>
    have hn : n < 16 := of_decide_eq_true hwf
    simp [encode, decodeWord_D, Nat.mod_eq_of_lt hn]
  case ldReg | orReg | andReg | xorReg | addReg | subReg | shr | subnReg | shl =>
    simp [encode, decodeWord_8, decodeFamily8]
  case skp | sknp => simp [encode, decodeWord_E, decodeFamilyE]
  case ldVxDt | ldVxK | ldDtVx | ldStVx | addIVx | ldFVx | ldBVx | ldMemVx | ldVxMem =>
    simp [encode, decodeWord_F, decodeFamilyF]

theorem encode_of_decodeFamily0 {w : Word} {i : Instr} (h : decodeFamily0 w = .instr i) :
    encode i = w ∧ i.wellFormed = true := by
  simp only [decodeFamily0] at h
  split_ifs at h <;> cases h <;> subst w <;> exact ⟨rfl, rfl⟩

theorem encode_of_decodeFamily8 {w : Word} {i : Instr} (hop : nibble1 w = 0x8) (h : decodeFamily8 w = .instr i) :
    encode i = w ∧ i.wellFormed = true := by
  have hw : encodeFR 0x8 (fieldX w) (fieldY w) (nibble4 w) = w := hop ▸ encodeFR_fields w
  simp only [decodeFamily8] at h
  split_ifs at h <;> cases h <;> rw [‹nibble4 w = _›] at hw <;> exact ⟨hw, rfl⟩

theorem encode_of_decodeFamilyE {w : Word} {i : Instr} (hop : nibble1 w = 0xE) (h : decodeFamilyE w = .instr i) :
    encode i = w ∧ i.wellFormed = true := by
  have hw : encodeFI 0xE (fieldX w) (fieldNN w) = w := hop ▸ encodeFI_fields w
  simp only [decodeFamilyE] at h
  split_ifs at h <;> cases h <;> rw [‹fieldNN w = _›] at hw <;> exact ⟨hw, rfl⟩

theorem encode_of_decodeFamilyF {w : Word} {i : Instr} (hop : nibble1 w = 0xF) (h : decodeFamilyF w = .instr i) :
    encode i = w ∧ i.wellFormed = true := by
  have hw : encodeFI 0xF (fieldX w) (fieldNN w) = w := hop ▸ encodeFI_fields w
  simp only [decodeFamilyF] at h
  split_ifs at h <;> cases h <;> rw [‹fieldNN w = _›] at hw <;> exact ⟨hw, rfl⟩

/-- The families of format FR with one legal nibble4 (rows 8 and 20). -/
theorem encodeFR_of_decode {w : Word} {op : Nibble} {i j : Instr} (hop : nibble1 w = op)
    (h : (if nibble4 w = 0x0 then Decoded.instr j else .unimplemented w) = .instr i) :
    i = j ∧ encodeFR op (fieldX w) (fieldY w) 0x0 = w := by
  split_ifs at h with h4
  cases h
  exact ⟨rfl, by rw [← h4, ← hop, encodeFR_fields]⟩

/-- Settles O2: family by family, the decoded instruction carries every field that is not fixed. -/
theorem encodeOfDecode : Obligations.EncodeOfDecode := by
  intro w i h
  have hFA {op : Nibble} (hop : nibble1 w = op) : encodeFA op (fieldNNN w) = w := hop ▸ encodeFA_fields w
  have hFI {op : Nibble} (hop : nibble1 w = op) : encodeFI op (fieldX w) (fieldNN w) = w := hop ▸ encodeFI_fields w
  rcases nibble1_cases w with h0 | h1 | h2 | h3 | h4 | h5 | h6 | h7 | h8 | h9 | hA | hB | hC | hD | hE | hF
  · exact encode_of_decodeFamily0 (decodeWord_0 w h0 ▸ h)
  · rw [decodeWord_1 w h1] at h; cases h; exact ⟨hFA h1, rfl⟩
  · rw [decodeWord_2 w h2] at h; cases h; exact ⟨hFA h2, rfl⟩
  · rw [decodeWord_3 w h3] at h; cases h; exact ⟨hFI h3, rfl⟩
  · rw [decodeWord_4 w h4] at h; cases h; exact ⟨hFI h4, rfl⟩
  · rw [decodeWord_5 w h5] at h
    obtain ⟨rfl, hw⟩ := encodeFR_of_decode h5 h
    exact ⟨hw, rfl⟩
  · rw [decodeWord_6 w h6] at h; cases h; exact ⟨hFI h6, rfl⟩
  · rw [decodeWord_7 w h7] at h; cases h; exact ⟨hFI h7, rfl⟩
  · exact encode_of_decodeFamily8 h8 (decodeWord_8 w h8 ▸ h)
  · rw [decodeWord_9 w h9] at h
    obtain ⟨rfl, hw⟩ := encodeFR_of_decode h9 h
    exact ⟨hw, rfl⟩
  · rw [decodeWord_A w hA] at h; cases h; exact ⟨hFA hA, rfl⟩
  · rw [decodeWord_B w hB] at h; cases h; exact ⟨hFA hB, rfl⟩
  · rw [decodeWord_C w hC] at h; cases h; exact ⟨hFI hC, rfl⟩
  · rw [decodeWord_D w hD] at h
    cases h
    have hn : BitVec.ofNat 4 (fieldN w) = nibble4 w := BitVec.ofNat_toNat 4 (nibble4 w) |>.trans (BitVec.setWidth_eq _)
    exact ⟨by rw [encode, hn, ← hD, encodeFR_fields], decide_eq_true (nibble4 w).isLt⟩
  · exact encode_of_decodeFamilyE hE (decodeWord_E w hE ▸ h)
  · exact encode_of_decodeFamilyF hF (decodeWord_F w hF ▸ h)

/-! ### The illegal words (R94) -/

theorem nibble1_eq_iff (w : Word) (n : Nibble) : nibble1 w = n ↔ w.toNat / 0x1000 = n.toNat := by
  rw [← nibble1_toNat, BitVec.toNat_inj]

theorem nibble4_eq_iff (w : Word) (n : Nibble) : nibble4 w = n ↔ w.toNat % 0x10 = n.toNat := by
  rw [← nibble4_toNat, BitVec.toNat_inj]

theorem fieldNN_eq_iff (w : Word) (b : Byte) : fieldNN w = b ↔ w.toNat % 0x100 = b.toNat := by
  rw [← fieldNN_toNat, BitVec.toNat_inj]

/-- The fields of a legal word, family by family: the opcode map read as a condition on the word (R93). -/
def LegalFields (w : Word) : Prop :=
  w ∈ ([0x0000, 0x00E0, 0x00EE] : List Word) ∨
  nibble1 w ∈ ([0x1, 0x2, 0x3, 0x4, 0x6, 0x7, 0xA, 0xB, 0xC, 0xD] : List Nibble) ∨
  (nibble1 w ∈ ([0x5, 0x9] : List Nibble) ∧ nibble4 w = 0x0) ∨
  (nibble1 w = 0x8 ∧ nibble4 w ∈ ([0x0, 0x1, 0x2, 0x3, 0x4, 0x5, 0x6, 0x7, 0xE] : List Nibble)) ∨
  (nibble1 w = 0xE ∧ fieldNN w ∈ ([0x9E, 0xA1] : List Byte)) ∨
  (nibble1 w = 0xF ∧ fieldNN w ∈ ([0x07, 0x0A, 0x15, 0x18, 0x1E, 0x29, 0x33, 0x55, 0x65] : List Byte))

theorem decodeWord_of_legalFields {w : Word} (h : LegalFields w) : ∃ i, decodeWord w = .instr i := by
  simp only [LegalFields, List.mem_cons, List.not_mem_nil, or_false] at h
  rcases h with hw | h1 | ⟨h1, h4⟩ | ⟨h8, h4⟩ | ⟨hE, hnn⟩ | ⟨hF, hnn⟩
  · rcases hw with rfl | rfl | rfl <;> exact ⟨_, rfl⟩
  · rcases h1 with h | h | h | h | h | h | h | h | h | h <;> simp [decodeWord, h]
  · rcases h1 with h | h <;> simp [decodeWord, h, h4]
  · rw [decodeWord_8 w h8]
    rcases h4 with h | h | h | h | h | h | h | h | h <;> simp [decodeFamily8, h]
  · rw [decodeWord_E w hE]
    rcases hnn with h | h <;> simp [decodeFamilyE, h]
  · rw [decodeWord_F w hF]
    rcases hnn with h | h | h | h | h | h | h | h | h <;> simp [decodeFamilyF, h]

theorem decodeWord_of_not_legalFields {w : Word} (h : ¬LegalFields w) : decodeWord w = .unimplemented w := by
  simp only [LegalFields, List.mem_cons, List.not_mem_nil, or_false, not_or, not_and] at h
  obtain ⟨h0, hpure, h59, h8, hE, hF⟩ := h
  rcases nibble1_cases w with e | e | e | e | e | e | e | e | e | e | e | e | e | e | e | e
  case inl => rw [decodeWord_0 w e, decodeFamily0, if_neg h0.1, if_neg h0.2.1, if_neg h0.2.2]
  all_goals simp_all [decodeWord, decodeFamily8, decodeFamilyE, decodeFamilyF]

theorem decodeWord_eq_unimplemented_iff (w : Word) : decodeWord w = .unimplemented w ↔ ¬LegalFields w := by
  refine ⟨fun hill hlegal => ?_, decodeWord_of_not_legalFields⟩
  obtain ⟨i, hi⟩ := decodeWord_of_legalFields hlegal
  cases hi.symm.trans hill

/-- Settles O3: the fields of a legal word as numbers, each family's complement being R94's list. -/
theorem illegalWordsExactly : Obligations.IllegalWordsExactly := by
  intro w
  have hfamily := nibble1_cases w
  rw [decodeWord_eq_unimplemented_iff]
  simp only [LegalFields, List.mem_cons, List.not_mem_nil, nibble1_eq_iff, nibble4_eq_iff, fieldNN_eq_iff] at hfamily ⊢
  simp only [← BitVec.toNat_inj, BitVec.ofNat_eq_ofNat, BitVec.toNat_ofNat] at hfamily ⊢
  rcases hfamily with h | h | h | h | h | h | h | h | h | h | h | h | h | h | h | h <;> simp [h] <;> omega

/-! ### The opcode map (R93) -/

/-- The rows of the map by mask: a row fixes the fields that make every word it covers legal. -/
theorem opcodeTable_cases : ∀ row ∈ opcodeTable,
    (row.mask = 0xFFFF ∧ row.pattern ∈ ([0x0000, 0x00E0, 0x00EE] : List Word)) ∨
    (row.mask = 0xF000 ∧ nibble1 row.pattern ∈ ([0x1, 0x2, 0x3, 0x4, 0x6, 0x7, 0xA, 0xB, 0xC, 0xD] : List Nibble)) ∨
    (row.mask = 0xF00F ∧ nibble1 row.pattern ∈ ([0x5, 0x9] : List Nibble) ∧ nibble4 row.pattern = 0x0) ∨
    (row.mask = 0xF00F ∧ nibble1 row.pattern = 0x8 ∧
      nibble4 row.pattern ∈ ([0x0, 0x1, 0x2, 0x3, 0x4, 0x5, 0x6, 0x7, 0xE] : List Nibble)) ∨
    (row.mask = 0xF0FF ∧ nibble1 row.pattern = 0xE ∧ fieldNN row.pattern ∈ ([0x9E, 0xA1] : List Byte)) ∨
    (row.mask = 0xF0FF ∧ nibble1 row.pattern = 0xF ∧
      fieldNN row.pattern ∈ ([0x07, 0x0A, 0x15, 0x18, 0x1E, 0x29, 0x33, 0x55, 0x65] : List Byte)) := by decide

/-- Two rows of the map differ in a bit that both of them fix. -/
theorem opcodeTable_eq_of_patterns_agree : ∀ r ∈ opcodeTable, ∀ q ∈ opcodeTable,
    r.pattern &&& q.mask = q.pattern &&& r.mask → r = q := by decide

theorem OpcodeRow.covers_iff (row : OpcodeRow) (w : Word) : row.covers w = true ↔ w &&& row.mask = row.pattern :=
  beq_iff_eq

theorem legalFields_of_covers {row : OpcodeRow} {w : Word} (hrow : row ∈ opcodeTable) (hcov : row.covers w = true) :
    LegalFields w := by
  rw [OpcodeRow.covers_iff] at hcov
  obtain ⟨hm, hp⟩ | ⟨hm, h1⟩ | ⟨hm, h1, h4⟩ | ⟨hm, h1, h4⟩ | ⟨hm, h1, hnn⟩ | ⟨hm, h1, hnn⟩ :=
    opcodeTable_cases row hrow <;> rw [hm] at hcov
  · have hw : w &&& 0xFFFF = w := BitVec.and_allOnes
    exact .inl (hw ▸ hcov ▸ hp)
  · exact .inr (.inl (fields_of_and_F000 hcov ▸ h1))
  · obtain ⟨e1, e4⟩ := fields_of_and_F00F hcov
    exact .inr (.inr (.inl ⟨e1 ▸ h1, e4 ▸ h4⟩))
  · obtain ⟨e1, e4⟩ := fields_of_and_F00F hcov
    exact .inr (.inr (.inr (.inl ⟨e1 ▸ h1, e4 ▸ h4⟩)))
  · obtain ⟨e1, enn⟩ := fields_of_and_F0FF hcov
    exact .inr (.inr (.inr (.inr (.inl ⟨e1 ▸ h1, enn ▸ hnn⟩))))
  · obtain ⟨e1, enn⟩ := fields_of_and_F0FF hcov
    exact .inr (.inr (.inr (.inr (.inr ⟨e1 ▸ h1, enn ▸ hnn⟩))))

/-- Every instruction's encoding lies in that instruction's row. -/
theorem encodeMatchesRow (i : Instr) : Laws.EncodeMatchesRow.Statement i := by
  cases i
  case nop => exact Laws.EncodeMatchesRow.nop
  case cls => exact Laws.EncodeMatchesRow.cls
  case ret => exact Laws.EncodeMatchesRow.ret
  case jp nnn => exact Laws.EncodeMatchesRow.jp nnn
  case call nnn => exact Laws.EncodeMatchesRow.call nnn
  case seImm x nn => exact Laws.EncodeMatchesRow.seImm x nn
  case sneImm x nn => exact Laws.EncodeMatchesRow.sneImm x nn
  case seReg x y => exact Laws.EncodeMatchesRow.seReg x y
  case ldImm x nn => exact Laws.EncodeMatchesRow.ldImm x nn
  case addImm x nn => exact Laws.EncodeMatchesRow.addImm x nn
  case ldReg x y => exact Laws.EncodeMatchesRow.ldReg x y
  case orReg x y => exact Laws.EncodeMatchesRow.orReg x y
  case andReg x y => exact Laws.EncodeMatchesRow.andReg x y
  case xorReg x y => exact Laws.EncodeMatchesRow.xorReg x y
  case addReg x y => exact Laws.EncodeMatchesRow.addReg x y
  case subReg x y => exact Laws.EncodeMatchesRow.subReg x y
  case shr x y => exact Laws.EncodeMatchesRow.shr x y
  case subnReg x y => exact Laws.EncodeMatchesRow.subnReg x y
  case shl x y => exact Laws.EncodeMatchesRow.shl x y
  case sneReg x y => exact Laws.EncodeMatchesRow.sneReg x y
  case ldI nnn => exact Laws.EncodeMatchesRow.ldI nnn
  case jpV0 nnn => exact Laws.EncodeMatchesRow.jpV0 nnn
  case rnd x nn => exact Laws.EncodeMatchesRow.rnd x nn
  case drw x y n => exact Laws.EncodeMatchesRow.drw x y n
  case skp x => exact Laws.EncodeMatchesRow.skp x
  case sknp x => exact Laws.EncodeMatchesRow.sknp x
  case ldVxDt x => exact Laws.EncodeMatchesRow.ldVxDt x
  case ldVxK x => exact Laws.EncodeMatchesRow.ldVxK x
  case ldDtVx x => exact Laws.EncodeMatchesRow.ldDtVx x
  case ldStVx x => exact Laws.EncodeMatchesRow.ldStVx x
  case addIVx x => exact Laws.EncodeMatchesRow.addIVx x
  case ldFVx x => exact Laws.EncodeMatchesRow.ldFVx x
  case ldBVx x => exact Laws.EncodeMatchesRow.ldBVx x
  case ldMemVx x => exact Laws.EncodeMatchesRow.ldMemVx x
  case ldVxMem x => exact Laws.EncodeMatchesRow.ldVxMem x

/-- Settles O4: a decoded word is its instruction's encoding, which lies in its row; a covered word has legal fields; two
rows that cover one word agree on the bits that both fix. -/
theorem decoderFollowsOpcodeMap : Obligations.DecoderFollowsOpcodeMap := by
  intro w
  refine ⟨fun i hi => ?_, fun ⟨row, hrow, hcov⟩ => decodeWord_of_legalFields (legalFields_of_covers hrow hcov),
    fun r hr q hq hrw hqw => opcodeTable_eq_of_patterns_agree r hr q hq ?_⟩
  · obtain ⟨hw, -⟩ := encodeOfDecode w i hi
    exact hw ▸ encodeMatchesRow i
  · rw [OpcodeRow.covers_iff] at hrw hqw
    rw [← hrw, ← hqw, BitVec.and_assoc, BitVec.and_assoc, BitVec.and_comm r.mask]

/-- Settles O5: the decoder run on the words. -/
theorem sampleWordsDecode : Obligations.SampleWordsDecode := by
  unfold Obligations.SampleWordsDecode
  decide

end Sys2Proof
end

section
/-! The step transaction: poll, fetch, decode, execute (spec/40_engine.md, R120 to R125), and the placed word. -/

namespace Sys2Proof.Machine

theorem step_of_waiting {s : State} {x : RegIx} (hmode : s.mode = .waitingForKey x) : step s = keyWaitPoll x s := by
  simp only [step, hmode]

theorem step_of_fetchWord_none {s : State} (hmode : s.mode = .running) (hfetch : s.fetchWord = none) :
    step s = .fault .outOfBounds := by
  simp only [step, hmode, hfetch, raise]

theorem step_of_unimplemented {s : State} {w v : Word} (hmode : s.mode = .running) (hfetch : s.fetchWord = some w)
    (hdecode : decodeWord w = .unimplemented v) : step s = .fault (.unimplementedOpcode v) := by
  simp only [step, hmode, hfetch, hdecode, raise]

theorem step_of_instr {s : State} {w : Word} {i : Instr} (hmode : s.mode = .running) (hfetch : s.fetchWord = some w)
    (hdecode : decodeWord w = .instr i) : step s = exec i s.advance := by
  simp only [step, hmode, hfetch, hdecode]

/-- Settles O6: the four cases are the four arms of `step` (R120). -/
theorem stepRunsDecodedInstruction : Obligations.StepRunsDecodedInstruction := fun _ =>
  ⟨fun _ => step_of_waiting, step_of_fetchWord_none, fun _ => step_of_unimplemented, fun _ _ => step_of_instr⟩

/-- What a step does: it polls, fails at fetch or decode, or executes the instruction it fetched (R120). -/
theorem step_cases (s : State) :
    (∃ x, s.mode = .waitingForKey x ∧ step s = keyWaitPoll x s) ∨ (∃ e, step s = .fault e) ∨
    (∃ w i, s.mode = .running ∧ s.fetchWord = some w ∧ decodeWord w = .instr i ∧ step s = exec i s.advance) := by
  cases hmode : s.mode
  case waitingForKey x => exact .inl ⟨x, rfl, step_of_waiting hmode⟩
  case running =>
    cases hfetch : s.fetchWord
    case none => exact .inr (.inl ⟨_, step_of_fetchWord_none hmode hfetch⟩)
    case some w =>
      cases hdecode : decodeWord w
      case unimplemented v => exact .inr (.inl ⟨_, step_of_unimplemented hmode hfetch hdecode⟩)
      case instr i => exact .inr (.inr ⟨w, i, rfl, rfl, hdecode, step_of_instr hmode hfetch hdecode⟩)

/-- A step that answers a next state polled, or executed the instruction it fetched. -/
theorem step_next_cases {s t : State} (h : step s = .next t) :
    (∃ x, s.mode = .waitingForKey x ∧ keyWaitPoll x s = .next t) ∨
    (∃ w i, s.mode = .running ∧ s.fetchWord = some w ∧ decodeWord w = .instr i ∧ exec i s.advance = .next t) := by
  rcases step_cases s with ⟨x, hmode, hpoll⟩ | ⟨e, hfault⟩ | ⟨w, i, hmode, hfetch, hdecode, hexec⟩
  · exact .inl ⟨x, hmode, hpoll ▸ h⟩
  · cases hfault.symm.trans h
  · exact .inr ⟨w, i, hmode, hfetch, hdecode, hexec ▸ h⟩

/-- Settles O7: the word's value is the two bytes', most significant first; the one bounds check covers both (R121). -/
theorem fetchReadsTwoBytesBigEndian : Obligations.FetchReadsTwoBytesBigEndian := by
  intro s
  refine ⟨fun hlt => ⟨_, s.fetchWord_of_lt hlt, wordOfBytes_toNat _ _⟩, fun hge => ?_⟩
  exact if_neg (Nat.not_lt.mpr hge)

theorem decodeWord_of_decodeTableWord {w : Nat} {i : Instr} (h : decodeTableWord 16 w = some i) :
    decodeWord (tableWord 16 w) = .instr i := by
  simp only [decodeTableWord, decodeBytes, wordOfBytes_high_low] at h
  cases hd : decodeWord (tableWord 16 w)
  case unimplemented v => simp [hd] at h
  case instr j => simpa [hd] using h

theorem fetchPlace_lt (s : State) : (fetchPlace s).toNat + 1 < Config.memSize := by
  rw [fetchPlace]
  split
  case isTrue h => exact h
  case isFalse => decide

/-- The placed word is what the next fetch reads (log 5). -/
theorem State.fetchWord_withFetchWord {s : State} (hwf : s.mem.wf) (w : Nat) :
    (s.withFetchWord 16 w).fetchWord = some (tableWord 16 w) := by
  have hread (c : Nat) := State.writeBytes_readByte ((s.setMode .running).setPc (fetchPlace s)) (fetchPlace s).toNat
    [highByte (tableWord 16 w), lowByte (tableWord 16 w)] c hwf
  have hhigh : (s.withFetchWord 16 w).readByte (fetchPlace s).toNat = highByte (tableWord 16 w) := by
    simp [State.withFetchWord, hread]
  have hlow : (s.withFetchWord 16 w).readByte ((fetchPlace s).toNat + 1) = lowByte (tableWord 16 w) := by
    simp [State.withFetchWord, hread]
  have hpc : (s.withFetchWord 16 w).pc = fetchPlace s := rfl
  rw [State.fetchWord_of_lt _ (hpc ▸ fetchPlace_lt s), hpc, hhigh, hlow, wordOfBytes_high_low]

/-- Settles O8: the placed machine is Running and fetches the placed word. -/
theorem placedWordRunsNext : Obligations.PlacedWordRunsNext := fun _ w _ hwf hw =>
  step_of_instr rfl (State.fetchWord_withFetchWord hwf w) (decodeWord_of_decodeTableWord hw)

end Sys2Proof.Machine
end

section
/-! The invariants of a step and of a host call (spec/10_state.md section 3, spec/40_engine.md R125, R327). -/

namespace Sys2Proof.Machine

theorem keyWaitPoll_of_some {s : State} {k : KeyIx} (x : RegIx) (h : lowestPressed s = some k) :
    keyWaitPoll x s = .next ((s.setV x (keyByte k)).advance.setMode .running) := by
  simp only [keyWaitPoll, h]

theorem keyWaitPoll_of_none {s : State} (x : RegIx) (h : lowestPressed s = none) : keyWaitPoll x s = .next s := by
  simp only [keyWaitPoll, h]

/-- A poll keeps waiting and changes nothing, or takes a key and ends the wait (R125). -/
theorem keyWaitPoll_next_cases {s t : State} {x : RegIx} (h : keyWaitPoll x s = .next t) :
    t = s ∨ ∃ k, t = (s.setV x (keyByte k)).advance.setMode .running := by
  cases hk : lowestPressed s
  case none => rw [keyWaitPoll_of_none x hk] at h; cases h; exact .inl rfl
  case some k => rw [keyWaitPoll_of_some x hk] at h; cases h; exact .inr ⟨k, rfl⟩

theorem State.push_eq_some {s t : State} {v : Word} (h : s.push v = some t) :
    ∃ hroom : s.sp.val < Config.stackDepth,
      t = { s with stack := s.stack.set s.sp.val v hroom, sp := ⟨s.sp.val + 1, Nat.succ_lt_succ hroom⟩ } := by
  by_cases hroom : s.sp.val < Config.stackDepth
  · rw [s.push_spec v hroom] at h
    exact ⟨hroom, (Option.some.inj h).symm⟩
  · rw [s.push_full v (by omega)] at h
    cases h

theorem State.pop_eq_some {s t : State} {v : Word} (h : s.pop = some (v, t)) :
    ∃ (n : Nat) (hn : n < Config.stackDepth), s.sp.val = n + 1 ∧ v = s.stack[n] ∧
      t = { s with sp := ⟨n, Nat.lt_succ_of_lt hn⟩ } := by
  cases hsp : s.sp.val
  case zero => rw [s.pop_empty hsp] at h; cases h
  case succ n =>
    have hn : n < Config.stackDepth := by omega
    rw [s.pop_spec n hn hsp] at h
    cases h
    exact ⟨n, hn, rfl, rfl, rfl⟩

/-- The call invariant speaks of memory, PC, stack and mode only. -/
theorem CallInv.congr {s t : State} (h : CallInv s) (hmem : t.mem = s.mem) (hpc : t.pc = s.pc)
    (hstack : t.stack = s.stack) (hmode : t.mode = s.mode) : CallInv t :=
  ⟨hmem ▸ h.memory, hpc ▸ h.pc, hstack ▸ h.slots, fun x hx => hpc ▸ h.waiting x (hmode ▸ hx)⟩

/-- An instruction executed after a fetch, so on a running machine with PC between 2 and 4096, meets the call invariant
again. -/
theorem Effect.keeps_callInv {s t : State} {i : Instr} (h : Effect s i t) (hmem : s.mem.wf) (hlow : 2 ≤ s.pc.toNat)
    (hhigh : s.pc.toNat ≤ 4096) (hslots : ∀ k : Fin Config.stackDepth, s.stack[k].toNat ≤ Config.memSize)
    (hmode : s.mode = .running) : CallInv t := by
  have hnowait {P : Prop} (x : RegIx) (hx : s.mode = .waitingForKey x) : P := by rw [hmode] at hx; cases hx
  have hs : CallInv s := ⟨hmem, Nat.le_trans hhigh (by decide), hslots, fun x => hnowait x⟩
  cases h
  case keeps => exact hs
  case register | flagged | random | registers | index | delay | sound | screen | drawn =>
    exact hs.congr (by simp) (by simp) (by simp) (by simp)
  case stored bs hfit => exact ⟨Memory.wf_writeList bs _ _ hmem hfit, hs.pc, hslots, fun x => hnowait x⟩
  case skipped =>
    have hpc : (s.pc + 2).toNat ≤ maxPc := by
      rw [BitVec.toNat_add]
      show (s.pc.toNat + 2) % 65536 ≤ 0x10FE
      omega
    exact ⟨hmem, hpc, hslots, fun x => hnowait x⟩
  case jumped w hw => exact ⟨hmem, hw, hslots, fun x => hnowait x⟩
  case called u nnn hpush =>
    obtain ⟨hroom, rfl⟩ := State.push_eq_some hpush
    have hnnn : (zext16 nnn).toNat ≤ maxPc := by rw [zext16_toNat]; exact Nat.le_trans nnn.isLt.le (by decide)
    have hslots' (k : Fin Config.stackDepth) : (s.stack.set s.sp.val s.pc hroom)[k].toNat ≤ Config.memSize := by
      rw [Fin.getElem_fin, Vector.getElem_set]
      split
      · exact hhigh
      · exact hslots k
    exact ⟨hmem, hnnn, hslots', fun x => hnowait x⟩
  case returned w u hpop =>
    obtain ⟨n, hn, -, rfl, rfl⟩ := State.pop_eq_some hpop
    exact ⟨hmem, Nat.le_trans (hslots ⟨n, hn⟩) (by decide), hslots, fun x => hnowait x⟩
  case waits x =>
    have hpc : (s.pc - 2).toNat = s.pc.toNat - 2 := BitVec.toNat_sub_of_le (BitVec.le_def.mpr hlow)
    have hbound : (s.pc - 2).toNat + 1 < 4096 := by rw [hpc]; omega
    exact ⟨hmem, Nat.le_trans (Nat.le_of_lt (Nat.lt_of_succ_lt hbound)) (by decide), hslots, fun _ _ => hbound⟩

/-- On a running machine only FX0A enters the waiting mode, and it takes the fetch advance back (R262). -/
theorem Effect.waits_of_mode {s t : State} {i : Instr} {x : RegIx} (h : Effect s i t) (hmode : s.mode = .running)
    (hwait : t.mode = .waitingForKey x) : i = .ldVxK x ∧ t = s.rewind.setMode (.waitingForKey x) := by
  have hrunning (hsame : t.mode = s.mode) : False := by rw [hsame, hmode] at hwait; cases hwait
  cases h
  case waits y => cases hwait; exact ⟨rfl, rfl⟩
  case called u nnn hpush => obtain ⟨hroom, rfl⟩ := State.push_eq_some hpush; exact (hrunning rfl).elim
  case returned w u hpop => obtain ⟨n, hn, -, -, rfl⟩ := State.pop_eq_some hpop; exact (hrunning rfl).elim
  all_goals exact (hrunning rfl).elim

/-- The fetch advance after a fetch that succeeded does not wrap (R121). -/
theorem State.advance_pc_toNat {s : State} (h : s.pc.toNat + 1 < 4096) :
    s.advance.pc.toNat = s.pc.toNat + 2 := by
  rw [State.advance_eq, State.setPc_pc, BitVec.toNat_add]
  show (s.pc.toNat + 2) % 65536 = s.pc.toNat + 2
  omega

theorem step_keeps_callInv {s t : State} (hs : CallInv s) (h : step s = .next t) : CallInv t := by
  rcases step_next_cases h with ⟨x, hmode, hpoll⟩ | ⟨w, i, hmode, hfetch, -, hexec⟩
  · rcases keyWaitPoll_next_cases hpoll with rfl | ⟨k, rfl⟩
    · exact hs
    · have hpc : ((s.setV x (keyByte k)).advance).pc.toNat ≤ maxPc := by
        have hlt : (s.setV x (keyByte k)).pc.toNat + 1 < Config.memSize := hs.waiting x hmode
        rw [State.advance_pc_toNat hlt]
        exact Nat.le_trans (Nat.succ_le_of_lt hlt) (by decide)
      exact ⟨hs.memory, hpc, hs.slots, nofun⟩
  · obtain ⟨hlt, -⟩ := State.fetchWord_some hfetch
    have hpc := State.advance_pc_toNat hlt
    have hhigh : s.pc.toNat + 2 ≤ 4096 := hlt
    exact (exec_effect hexec).keeps_callInv hs.memory (by omega) (by omega) hs.slots hmode

theorem StepInv.callInv {s : State} (h : StepInv s) : CallInv s :=
  ⟨h.memory, h.pc, h.slots, fun x hx => (State.fetchWord_some (h.waiting x hx)).1⟩

@[simp] theorem State.advance_rewind (s : State) : s.advance.rewind = s := by
  rw [State.advance_eq, State.rewind_eq, State.setPc_setPc, State.setPc_pc, BitVec.add_sub_cancel, State.setPc_pc_self]

/-- Settles O51: memory, PC and slots as for a host call; a step that leaves the machine waiting polled in vain, or
executed the FX0A that PC is put back on. -/
theorem stepKeepsInvariant : Obligations.StepKeepsInvariant := by
  intro s t hs h
  obtain ⟨hmem, hpc, hslots, -⟩ := step_keeps_callInv hs.callInv h
  refine ⟨hmem, hpc, hslots, fun x hx => ?_⟩
  rcases step_next_cases h with ⟨y, -, hpoll⟩ | ⟨w, i, hmode, hfetch, hdecode, hexec⟩
  · rcases keyWaitPoll_next_cases hpoll with rfl | ⟨k, rfl⟩
    · exact hs.waiting x hx
    · cases hx
  · obtain ⟨rfl, rfl⟩ := (exec_effect hexec).waits_of_mode hmode hx
    obtain ⟨hw, -⟩ := encodeOfDecode w _ hdecode
    rw [State.advance_rewind, State.setMode_fetchWord, hfetch, hw]

/-- Settles O50: at reset nothing is listed in memory, every slot is 0 and the mode is Running (R340). -/
theorem resetMeetsInvariants : Obligations.ResetMeetsInvariants := by
  have hslots : ∀ k : Fin Config.stackDepth, State.reset.stack[k].toNat ≤ Config.memSize := by decide
  exact ⟨⟨Memory.wf_reset, by decide, hslots, nofun⟩, ⟨Memory.wf_reset, by decide, hslots, nofun⟩⟩

/-- What a call leaves is the state before it, or the next state that the operation answers. -/
theorem settle_fst_cases (s : State) (o : Host.Outcome State Fault Refusal) :
    (settle s o).1 = s ∨ o = .next (settle s o).1 := by
  cases o
  case next t => exact .inr rfl
  case fault e => exact .inl rfl
  case refused r => exact .inl rfl

theorem hostLoad_of_le {bytes : List Byte} (s : State) (h : bytes.length ≤ 3584) :
    hostLoad bytes s = .next (s.writeBytes Config.origin bytes) :=
  if_neg (Nat.not_lt.mpr h)

theorem hostLoad_of_lt {bytes : List Byte} (s : State) (h : 3584 < bytes.length) :
    hostLoad bytes s = .fault .loadTooLarge :=
  if_pos h

theorem hostSetKey_of_lt {k : Nat} (p : Bool) (s : State) (h : k < 16) :
    hostSetKey k p s = .next (s.setKey ⟨k, h⟩ p) :=
  dif_pos h

theorem hostSetKey_of_gt {k : Nat} (p : Bool) (s : State) (h : 15 < k) :
    hostSetKey k p s = .fault (.invalidKeyIndex k) :=
  dif_neg (Nat.not_lt.mpr h)

theorem hostLoad_keeps_callInv {bytes : List Byte} {s t : State} (hs : CallInv s) (h : hostLoad bytes s = .next t) :
    CallInv t := by
  by_cases hlen : bytes.length ≤ 3584
  · rw [hostLoad_of_le s hlen] at h
    cases h
    have hfit : Config.origin + bytes.length ≤ Config.memSize := by show 0x200 + _ ≤ 4096; omega
    exact ⟨Memory.wf_writeList bytes _ _ hs.memory hfit, hs.pc, hs.slots, hs.waiting⟩
  · rw [hostLoad_of_lt s (Nat.lt_of_not_le hlen)] at h
    cases h

theorem hostSetKey_keeps_callInv {k : Nat} {p : Bool} {s t : State} (hs : CallInv s) (h : hostSetKey k p s = .next t) :
    CallInv t := by
  by_cases hk : k < 16
  · rw [hostSetKey_of_lt p s hk] at h
    cases h
    exact hs.congr rfl rfl rfl rfl
  · rw [hostSetKey_of_gt p s (Nat.le_of_not_lt hk)] at h
    cases h

/-- One host call, whichever it is, keeps the call invariant (R327). -/
theorem call_keeps_callInv (c : HostCall) {s : State} (hs : CallInv s) : CallInv (call c s).1 := by
  have hreset : CallInv State.reset := resetMeetsInvariants.2
  have hsettle {o : Host.Outcome State Fault Refusal} (ho : ∀ t, o = .next t → CallInv t) : CallInv (settle s o).1 := by
    rcases settle_fst_cases s o with h | h
    · rwa [h]
    · exact ho _ h
  cases c
  case construct | reset => exact hreset.congr rfl rfl rfl rfl
  case tickTimers => exact hs.congr rfl rfl rfl rfl
  case framebuffer => exact hs
  case load bytes => exact hsettle fun t => hostLoad_keeps_callInv hs
  case step => exact hsettle fun t => step_keeps_callInv hs
  case setKey k p => exact hsettle fun t => hostSetKey_keeps_callInv hs

/-- Settles O52: by induction on the schedule, one call at a time (R327). -/
theorem everyScheduleKeepsInvariant : Obligations.EveryScheduleKeepsInvariant := by
  intro cs
  induction cs with
  | nil => exact fun _ hs => hs
  | cons c cs ih => exact fun s hs => ih (call c s).1 (call_keeps_callInv c hs)

end Sys2Proof.Machine
end

section
/-! When an instruction fails, and what the host sees of it (spec/60_exceptions.md, R300 to R304). -/

namespace Sys2Proof.Machine

theorem exec_call_of_lt {s : State} (nnn : Addr12) (hroom : s.sp.val < Config.stackDepth) :
    exec (.call nnn) s = .next { s with
      stack := s.stack.set s.sp.val s.pc hroom, sp := ⟨s.sp.val + 1, Nat.succ_lt_succ hroom⟩, pc := zext16 nnn } := by
  simp only [exec, execCall, s.push_spec s.pc hroom]
  rfl

theorem exec_call_of_full {s : State} (nnn : Addr12) (hfull : s.sp.val = Config.stackDepth) :
    exec (.call nnn) s = .fault .stackOverflow := by
  simp only [exec, execCall, s.push_full s.pc hfull, raise]

theorem exec_ret_of_eq_succ {s : State} {n : Nat} (hn : n < Config.stackDepth) (hsp : s.sp.val = n + 1) :
    exec .ret s = .next { s with sp := ⟨n, Nat.lt_succ_of_lt hn⟩, pc := s.stack[n] } := by
  simp only [exec, execRet, s.pop_spec n hn hsp]
  rfl

theorem exec_ret_of_empty {s : State} (hempty : s.sp.val = 0) : exec .ret s = .fault .stackUnderflow := by
  simp only [exec, execRet, s.pop_empty hempty, raise]

theorem skipOnKey_of_lt {s : State} {x : RegIx} (p : Bool) (h : (s.getV x).toNat < 16) :
    skipOnKey x p s = .next (s.skipIf (s.key[(s.getV x).toNat] == p)) := by
  simp only [skipOnKey, keyIndex_of_lt _ h]
  rfl

theorem skipOnKey_of_gt {s : State} {x : RegIx} (p : Bool) (h : 15 < (s.getV x).toNat) :
    skipOnKey x p s = .fault (.invalidKeyIndex (s.getV x).toNat) := by
  simp only [skipOnKey, keyIndex_of_ge _ h, raise]

theorem exec_ldVxK_of_some {s : State} {k : KeyIx} (x : RegIx) (h : lowestPressed s = some k) :
    exec (.ldVxK x) s = .next (s.setV x (keyByte k)) := by
  simp only [exec, execLdVxK, h]

theorem exec_ldVxK_of_none {s : State} (x : RegIx) (h : lowestPressed s = none) :
    exec (.ldVxK x) s = .next (s.rewind.setMode (.waitingForKey x)) := by
  simp only [exec, execLdVxK, h]

/-! ### The error conditions, one per instruction that has one -/

theorem exec_call_eq_fault_iff (nnn : Addr12) (s : State) (e : Fault) :
    exec (.call nnn) s = .fault e ↔ s.sp.val = 16 ∧ e = .stackOverflow := by
  by_cases hroom : s.sp.val < 16
  · have hne : s.sp.val ≠ 16 := Nat.ne_of_lt hroom
    simp [exec_call_of_lt nnn hroom, hne]
  · have hfull : s.sp.val = 16 := Nat.le_antisymm (Nat.le_of_lt_succ s.sp.isLt) (Nat.le_of_not_lt hroom)
    simp [exec_call_of_full nnn hfull, hfull, eq_comm]

theorem exec_ret_eq_fault_iff (s : State) (e : Fault) :
    exec .ret s = .fault e ↔ s.sp.val = 0 ∧ e = .stackUnderflow := by
  cases hsp : s.sp.val
  case zero => simp [exec_ret_of_empty hsp, eq_comm]
  case succ n =>
    have hn : n < Config.stackDepth := by omega
    simp [exec_ret_of_eq_succ hn hsp]

theorem skipOnKey_eq_fault_iff (x : RegIx) (p : Bool) (s : State) (e : Fault) :
    skipOnKey x p s = .fault e ↔ 15 < (s.getV x).toNat ∧ e = .invalidKeyIndex (s.getV x).toNat := by
  by_cases h : (s.getV x).toNat < 16
  · have hle : ¬15 < (s.getV x).toNat := by omega
    simp [skipOnKey_of_lt p h, hle]
  · have hgt : 15 < (s.getV x).toNat := by omega
    simp [skipOnKey_of_gt p hgt, hgt, eq_comm]

/-- An access through I fails when its last byte, or an earlier one, is no valid address (R62). -/
theorem whenInMemory_iAddr_eq_fault_iff (s t : State) (n : Nat) (e : Fault) :
    whenInMemory (iAddr s 0) n (.next t) = .fault e ↔ 0 < n ∧ 4096 ≤ s.i.toNat + n - 1 ∧ e = .outOfBounds := by
  have hin := inMemory_iAddr s n
  by_cases h : InMemory (iAddr s 0) n
  · simp only [whenInMemory_of _ _ _ h, reduceCtorEq, false_iff]
    omega
  · have hout : 0 < n ∧ 4096 ≤ s.i.toNat + n - 1 := by omega
    simp [whenInMemory_of_not _ _ _ h, hout, eq_comm]

theorem exec_ldVxK_ne_fault (x : RegIx) (s : State) (e : Fault) : exec (.ldVxK x) s ≠ .fault e := by
  cases hk : lowestPressed s
  case none => rw [exec_ldVxK_of_none x hk]; exact nofun
  case some k => rw [exec_ldVxK_of_some x hk]; exact nofun

/-- Settles O9: the eight instructions with an error condition; each of the others has one arm, a next state. -/
theorem instructionsFailExactlyWhere : Obligations.InstructionsFailExactlyWhere := by
  intro i s e
  cases i
  case call nnn => simp [exec_call_eq_fault_iff]
  case ret => simp [exec_ret_eq_fault_iff]
  case skp x =>
    rw [show exec (.skp x) s = skipOnKey x true s from rfl, skipOnKey_eq_fault_iff]
    simp
  case sknp x =>
    rw [show exec (.sknp x) s = skipOnKey x false s from rfl, skipOnKey_eq_fault_iff]
    simp
  case drw x y n =>
    refine (whenInMemory_iAddr_eq_fault_iff s _ n e).trans ?_
    simp
  case ldBVx x =>
    refine (whenInMemory_iAddr_eq_fault_iff s _ 3 e).trans ?_
    simp
  case ldMemVx x | ldVxMem x =>
    refine (whenInMemory_iAddr_eq_fault_iff s _ (x.val + 1) e).trans ?_
    simp
  case ldVxK x => simp [exec_ldVxK_ne_fault x s e]
  all_goals exact iff_of_false nofun (by simp)

theorem whenInMemory_next_ne_refused (a n : Nat) (t : State) (r : Refusal) :
    whenInMemory a n (.next t) ≠ .refused r := by
  by_cases h : InMemory a n
  · rw [whenInMemory_of _ _ _ h]; exact nofun
  · rw [whenInMemory_of_not _ _ _ h]; exact nofun

theorem skipOnKey_ne_refused (x : RegIx) (p : Bool) (s : State) (r : Refusal) : skipOnKey x p s ≠ .refused r := by
  by_cases h : (s.getV x).toNat < 16
  · rw [skipOnKey_of_lt p h]; exact nofun
  · rw [skipOnKey_of_gt p (Nat.lt_of_not_le fun hle => h (Nat.lt_succ_of_le hle))]; exact nofun

/-- Every instruction has its meaning: no arm of `exec` is a refusal. -/
theorem exec_ne_refused (i : Instr) (s : State) (r : Refusal) : exec i s ≠ .refused r := by
  cases i
  case call nnn =>
    by_cases hroom : s.sp.val < Config.stackDepth
    · rw [exec_call_of_lt nnn hroom]; exact nofun
    · rw [exec_call_of_full nnn (by omega)]; exact nofun
  case ret =>
    cases hsp : s.sp.val
    case zero => rw [exec_ret_of_empty hsp]; exact nofun
    case succ n => rw [exec_ret_of_eq_succ (by omega) hsp]; exact nofun
  case skp x => exact skipOnKey_ne_refused x true s r
  case sknp x => exact skipOnKey_ne_refused x false s r
  case drw | ldBVx | ldMemVx | ldVxMem => exact whenInMemory_next_ne_refused _ _ _ r
  case ldVxK x =>
    cases hk : lowestPressed s
    case none => rw [exec_ldVxK_of_none x hk]; exact nofun
    case some k => rw [exec_ldVxK_of_some x hk]; exact nofun
  all_goals exact nofun

theorem keyWaitPoll_ne_refused (x : RegIx) (s : State) (r : Refusal) : keyWaitPoll x s ≠ .refused r := by
  cases hk : lowestPressed s
  case none => rw [keyWaitPoll_of_none x hk]; exact nofun
  case some k => rw [keyWaitPoll_of_some x hk]; exact nofun

/-- Settles O10: a step polls, is an error, or is what an instruction does. -/
theorem stepIsNeverRefused : Obligations.StepIsNeverRefused := by
  intro s r
  rcases step_cases s with ⟨x, -, h⟩ | ⟨e, h⟩ | ⟨w, i, -, -, -, h⟩ <;> rw [h]
  · exact keyWaitPoll_ne_refused x s r
  · exact nofun
  · exact exec_ne_refused i s.advance r

/-- Settles O12: the failed call left the state it was given, so each further call is the same call (R304). -/
theorem failedStepFailsAgain : Obligations.FailedStepFailsAgain := by
  intro s e n herror
  have hcall : call .step s = (s, .error e) := Prod.ext (call_fst_of_error herror) herror
  induction n with
  | zero => rfl
  | succ n ih => rw [List.replicate_succ, runCalls, hcall, ih]; rfl

end Sys2Proof.Machine
end

section
/-! Control transfer: no-op, jumps, a step over a skip, call and return (spec/41_control.md, R140 to R151). -/

namespace Sys2Proof.Machine

theorem Frame.trans {w : Writes} {s t u : State} (hst : Frame w s t) (htu : Frame w t u) : Frame w s u where
  regs r hr := (htu.regs r hr).trans (hst.regs r hr)
  bytes a ha := (htu.bytes a ha).trans (hst.bytes a ha)
  slots k hk := (htu.slots k hk).trans (hst.slots k hk)
  index h := (htu.index h).trans (hst.index h)
  pc h := (htu.pc h).trans (hst.pc h)
  sp h := (htu.sp h).trans (hst.sp h)
  dt h := (htu.dt h).trans (hst.dt h)
  st h := (htu.st h).trans (hst.st h)
  key := htu.key.trans hst.key
  fb h := (htu.fb h).trans (hst.fb h)
  mode h := (htu.mode h).trans (hst.mode h)
  draws h := (htu.draws h).trans (hst.draws h)

/-- Settles O13: NOP answers its state, the jumps write PC; 0xFF + 0xFFF is below 2^16 (R141, R145, R151). -/
theorem nopAndJumps : Obligations.NopAndJumps := by
  intro s nnn
  have hjp : exec (.jp nnn) s = .next (s.setPc (zext16 nnn)) := rfl
  have hjpV0 : exec (.jpV0 nnn) s = .next (s.setPc (byteToWord (s.getV 0) + zext16 nnn)) := rfl
  have hsum : (byteToWord (s.getV 0) + zext16 nnn).toNat = (s.getV 0).toNat + nnn.toNat := by
    rw [BitVec.toNat_add, byteToWord_toNat, zext16_toNat]
    omega
  exact ⟨rfl, ⟨_, hjp, zext16_toNat nnn, Frame.setPc s _⟩, ⟨_, hjpV0, hsum, Frame.setPc s _⟩⟩

/-- The step that fetches an instruction's encoding executes that instruction. -/
theorem step_of_fetchWord_encode {s : State} {i : Instr} (hwf : i.wellFormed = true) (hmode : s.mode = .running)
    (hfetch : s.fetchWord = some (encode i)) : step s = exec i s.advance :=
  step_of_instr hmode hfetch (decodeOfEncode i hwf)

/-- Settles O15: the fetch advance, which cannot wrap where a fetch succeeded, and then the skip (R121, R140). -/
theorem stepOverSkipAdvancesByFourOrTwo : Obligations.StepOverSkipAdvancesByFourOrTwo := by
  intro s x y nn i c hi hmode hfetch
  obtain ⟨b, hexec, hb, hwf⟩ : ∃ b, exec i s.advance = .next (s.advance.skipIf b) ∧ (b = true ↔ c) ∧
      i.wellFormed = true := by
    rcases hi with ⟨rfl, hc⟩ | ⟨rfl, hc⟩ | ⟨rfl, hc⟩ | ⟨rfl, hc⟩
    · exact ⟨s.getV x == nn, rfl, beq_iff_eq.trans hc.symm, rfl⟩
    · exact ⟨s.getV x != nn, rfl, bne_iff_ne.trans hc.symm, rfl⟩
    · exact ⟨s.getV x == s.getV y, rfl, beq_iff_eq.trans hc.symm, rfl⟩
    · exact ⟨s.getV x != s.getV y, rfl, bne_iff_ne.trans hc.symm, rfl⟩
  have hlt : s.pc.toNat + 1 < 4096 := (State.fetchWord_some hfetch).1
  have hpc := State.skipIf_pc_toNat s.advance b
  rw [State.advance_pc_toNat hlt] at hpc
  refine ⟨_, (step_of_fetchWord_encode hwf hmode hfetch).trans hexec, fun hc => ?_, fun hc => ?_,
    (Frame.setPc s _).trans (State.skipIf_frame _ b)⟩
  · rw [hpc, if_pos (hb.mpr hc)]
    omega
  · rw [hpc, if_neg (mt hb.mp hc)]

/-- Settles O16: with room the call is the push and the jump, otherwise the error (R143, R146). -/
theorem callPushesReturnAddress : Obligations.CallPushesReturnAddress := by
  intro s nnn
  refine ⟨fun hroom => ⟨_, exec_call_of_lt nnn hroom, Vector.getElem_set_self .., rfl, zext16_toNat nnn, ?_⟩,
    exec_call_of_full nnn⟩
  constructor
  case slots =>
    intro k hk
    have hne : s.sp.val ≠ k.val := by simpa [eq_comm] using hk
    exact Vector.getElem_set_ne hroom k.isLt hne
  all_goals simp [State.getV, State.readByte]

/-- Settles O17: with an entry the return is the pop and the jump, otherwise the error (R142, R144). -/
theorem returnPopsReturnAddress : Obligations.ReturnPopsReturnAddress := by
  intro s
  refine ⟨fun n hn hsp => ⟨_, exec_ret_of_eq_succ hn hsp, rfl, rfl, ?_⟩, exec_ret_of_empty⟩
  constructor <;> simp [State.getV, State.readByte]

/-- Settles O18: the call's entry is the topmost, and a push leaves the slots below it (R26, R142, R146). -/
theorem returnComesBackAfterCall : Obligations.ReturnComesBackAfterCall := by
  intro s t u nnn hcall hstack hsp
  by_cases hroom : s.sp.val < Config.stackDepth
  · rw [exec_call_of_lt nnn hroom] at hcall
    cases hcall
    have hsp' : u.sp.val = s.sp.val + 1 := congrArg Fin.val hsp
    refine ⟨_, exec_ret_of_eq_succ hroom hsp', ?_, rfl, fun k hk => ?_⟩
    · simp [hstack]
    · have hne : s.sp.val ≠ k.val := by omega
      simp [hstack, hne]
  · rw [exec_call_of_full nnn (by omega)] at hcall
    cases hcall

end Sys2Proof.Machine
end

section
/-! Index register and memory: store and load back, self-modifying code, the canonical form, load
(spec/43_index_memory.md, spec/20_memory.md section 4, R323). -/

namespace Sys2Proof.Machine

/-- A store that completed was in bounds, and every byte it wrote reads back (R214). -/
theorem ldMemVx_next_reads {s t : State} {x : RegIx} (hwf : s.mem.wf) (h : exec (.ldMemVx x) s = .next t) :
    s.i.toNat + x.val < 4096 ∧ (∀ k : RegIx, k ≤ x → t.readByte (iAddr s k.val) = s.getV k) ∧
      Frame { bytes := iAddrs s (x.val + 1) } s t := by
  obtain ⟨hin, hout⟩ := storeRegistersToMemory s x hwf
  by_cases hfit : s.i.toNat + x.val < 4096
  · obtain ⟨u, hu, hread, hframe⟩ := hin hfit
    cases hu.symm.trans h
    exact ⟨hfit, hread, hframe⟩
  · cases (hout (Nat.le_of_not_lt hfit)).symm.trans h

/-- Settles O29: what the store wrote is what the load reads, at the same addresses (R214, R215, R70). -/
theorem storeThenLoadRestoresRegisters : Obligations.StoreThenLoadRestoresRegisters := by
  intro s t u x hwf hstore hmem hi
  obtain ⟨hfit, hread, -⟩ := ldMemVx_next_reads hwf hstore
  obtain ⟨v, hv, hload, hframe⟩ := (loadRegistersFromMemory u x).1 (hi ▸ hfit)
  refine ⟨v, hv, fun k => ⟨fun hk => ?_, fun hk => ?_⟩⟩
  · calc v.getV k = u.readByte (iAddr u k.val) := hload k hk
      _ = t.readByte (iAddr s k.val) := by simp only [State.readByte, iAddr, hmem, hi]
      _ = s.getV k := hread k hk
  · exact hframe.regs k (by simpa using hk)

/-- Settles O30: after the step PC is where the store began, and the two bytes there are V0 and V1 (R72). -/
theorem storeIsSeenByTheNextFetch : Obligations.StoreIsSeenByTheNextFetch := by
  intro s t x hwf hmode hfetch hx hi hstep
  rw [step_of_fetchWord_encode rfl hmode hfetch] at hstep
  obtain ⟨hfit, hread, hframe⟩ := ldMemVx_next_reads (s := s.advance) hwf hstep
  have hpc : t.pc.toNat = s.i.toNat := by
    rw [hframe.pc rfl, State.advance_pc_toNat (State.fetchWord_some hfetch).1, hi]
  have h0 : t.readByte t.pc.toNat = s.getV 0 := by rw [hpc]; exact hread 0 (Nat.zero_le _)
  have h1 : t.readByte (t.pc.toNat + 1) = s.getV 1 := by rw [hpc]; exact hread 1 hx
  have hlt : t.pc.toNat + 1 < 4096 := by rw [hpc]; exact Nat.lt_of_le_of_lt (Nat.add_le_add_left hx _) hfit
  rw [t.fetchWord_of_lt hlt, h0, h1]

/-- A listed byte is what its address reads as, when the addresses rise strictly. -/
theorem Memory.read_of_mem {m : Memory} {c : Host.Cell} (hs : m.Pairwise (fun p q => p.1 < q.1)) (hc : c ∈ m) :
    m.read c.1 = c.2 := by
  induction m with
  | nil => cases hc
  | cons p rest ih =>
    obtain ⟨hfirst, hrest⟩ := List.pairwise_cons.mp hs
    rcases List.mem_cons.mp hc with rfl | hc
    · exact if_pos rfl
    · exact (if_neg (Nat.ne_of_gt (hfirst c hc))).trans (ih hrest hc)

/-- An address that does not read as the reset contents is listed. -/
theorem Memory.mem_of_read_ne {m : Memory} {a : Nat} (h : m.read a ≠ Memory.background a) : (a, m.read a) ∈ m := by
  induction m with
  | nil => exact absurd rfl h
  | cons p rest ih =>
    by_cases ha : a = p.1
    · subst ha
      simp [Memory.read]
    · simp only [Memory.read, ha, if_false] at h ⊢
      exact List.mem_cons_of_mem _ (ih h)

/-- What a canonical memory lists is determined by what it reads (log 4). -/
theorem Memory.mem_iff_read {m : Memory} (hwf : m.wf) (c : Host.Cell) :
    c ∈ m ↔ c.1 < Config.memSize ∧ c.2 ≠ Memory.background c.1 ∧ m.read c.1 = c.2 := by
  obtain ⟨hs, hcells⟩ := hwf
  refine ⟨fun hc => ⟨(hcells c hc).1, (hcells c hc).2, Memory.read_of_mem hs hc⟩, fun ⟨_, hne, hread⟩ => ?_⟩
  have hmem : (c.1, m.read c.1) ∈ m := Memory.mem_of_read_ne (hread ▸ hne)
  rwa [hread] at hmem

/-- Settles O31: the two lists have the same entries in the same order (log 4). -/
theorem memoryFormIsCanonical : Obligations.MemoryFormIsCanonical := by
  intro m m' hwf hwf' hread
  have hmem (c : Host.Cell) : c ∈ m ↔ c ∈ m' := by
    rw [Memory.mem_iff_read hwf, Memory.mem_iff_read hwf']
    exact and_congr_right fun hlt => by rw [hread c.1 hlt]
  exact List.Pairwise.eq_of_mem_iff hwf.1 hwf'.1 hmem

/-- Settles O47: an image that fits is one store from the origin on, a longer one is the error (R323). -/
theorem loadPlacesImageAtOrigin : Obligations.LoadPlacesImageAtOrigin := by
  intro s bytes hwf
  refine ⟨fun hfit => ⟨_, hostLoad_of_le s hfit, fun j b hj => ?_, ?_⟩, hostLoad_of_lt s⟩
  · obtain ⟨hlt, rfl⟩ := List.getElem?_eq_some_iff.mp hj
    rw [State.writeBytes_readByte s _ bytes _ hwf]
    simp [hlt]
  · refine Frame.writeBytes s _ bytes _ hwf fun c hc => ?_
    exact List.mem_map.mpr ⟨c - 0x200, List.mem_range.mpr hc.2, Nat.add_sub_cancel' hc.1⟩

end Sys2Proof.Machine
end

section
/-! Display: one draw, two draws, and the linear grid (spec/44_display.md, R241 to R243). -/

namespace Sys2Proof.Machine

/-- The blit at the sprite's origin touches the pixels of the rule's own wording (R241, R242). -/
theorem blitTouches_eq_spriteTouches (s : State) (x y : RegIx) (n : Nat) :
    BlitTouches (originX s x) (originY s y) n (fun row => s.readByte (iAddr s row)) = SpriteTouches s x y n := by
  funext px py
  apply propext
  constructor
  · rintro ⟨row, hrow, col, hcol, hbit, rfl, rfl⟩
    exact ⟨row, col, hrow, hcol, hbit, rfl, rfl⟩
  · rintro ⟨row, col, hrow, hcol, hbit, hx, hy⟩
    exact ⟨row, hrow, col, hcol, hbit, Fin.ext hx, Fin.ext hy⟩

theorem Frame.drawn (s : State) (f : Framebuffer) (b : Byte) :
    Frame { regs := [15], fb := true } s ((s.setFb f).setV flagReg b) := by
  constructor <;> simp +contextual [State.setV_getV]

/-- Settles O33: a checked blit, whose toggles are the sprite's pixels and whose collision goes into VF (R241 to R243). -/
theorem drawInvertsSpritePixels : Obligations.DrawInvertsSpritePixels := by
  intro s x y n hn
  have hexec : exec (.drw x y n) s = whenInMemory (iAddr s 0) n
    (.next ((s.setFb (spriteBlit x y n s).1).setV flagReg (collisionFlag (spriteBlit x y n s).2))) := rfl
  have htoggles : Toggles (SpriteTouches s x y n) (s.fb, false) (spriteBlit x y n s) := by
    rw [← blitTouches_eq_spriteTouches]
    exact blit_toggles _ _ n _ s.fb (by omega)
  have hcollision : (spriteBlit x y n s).2 = true ↔ ∃ px py, SpriteTouches s x y n px py ∧ s.pixel px py = true := by
    exact htoggles.collision.trans (by simp [State.pixel])
  refine ⟨fun hfit => ⟨_, hexec.trans (whenInMemory_of _ _ _ ?_), htoggles.pixels, fun hset => ?_, fun hclear => ?_,
    Frame.drawn s _ _⟩, fun hpos hout => hexec.trans (whenInMemory_of_not _ _ _ ?_)⟩
  · rw [inMemory_iAddr]; omega
  · rw [State.setV_getV_same, hcollision.mpr hset]; rfl
  · rw [State.setV_getV_same, Bool.eq_false_iff.mpr (mt hcollision.mp hclear)]; rfl
  · rw [inMemory_iAddr]; omega

/-- A pixel that two draws both invert, or both leave, is as it was. -/
theorem eq_of_inverted_alike : ∀ a b c : Bool, (c ≠ b ↔ b ≠ a) → c = a := by decide

/-- An inverted pixel is set afterwards exactly when it was not before. -/
theorem set_after_inversion_iff : ∀ a b : Bool, b ≠ a ∧ b = true ↔ b ≠ a ∧ a = false := by decide

/-- Settles O34: both draws invert the same pixels, and a pixel is set after the first exactly when it was not before
(S11). -/
theorem drawingTwiceRestoresScreen : Obligations.DrawingTwiceRestoresScreen := by
  intro s t x y n hn hdraw hx hy
  obtain ⟨hdraws, hfails⟩ := drawInvertsSpritePixels s x y n hn
  have hfit : n = 0 ∨ s.i.toNat + n - 1 < 4096 := by
    by_contra hout
    cases (hfails (by omega) (by omega)).symm.trans hdraw
  obtain ⟨t', ht', hfirst, -, -, hframe⟩ := hdraws hfit
  cases ht'.symm.trans hdraw
  have hi : t.i = s.i := hframe.index rfl
  have htouches (px : Fin Config.screenW) (py : Fin Config.screenH) :
      SpriteTouches t x y n px py ↔ SpriteTouches s x y n px py := by
    have hbyte (a : Nat) : t.readByte a = s.readByte a := hframe.bytes a List.not_mem_nil
    simp only [SpriteTouches, hbyte, hi, hx, hy]
  obtain ⟨u, hu, hsecond, hset, hclear, -⟩ := (drawInvertsSpritePixels t x y n hn).1 (hi ▸ hfit)
  have hpixel (px : Fin Config.screenW) (py : Fin Config.screenH) : u.pixel px py = s.pixel px py := by
    exact eq_of_inverted_alike _ _ _ ((hsecond px py).trans ((htouches px py).trans (hfirst px py).symm))
  have hwas (px : Fin Config.screenW) (py : Fin Config.screenH) :
      SpriteTouches t x y n px py ∧ t.pixel px py = true ↔ SpriteTouches s x y n px py ∧ s.pixel px py = false := by
    rw [htouches, ← hfirst px py]
    exact set_after_inversion_iff _ _
  refine ⟨u, hu, ?_, ?_⟩
  · ext px hpx py hpy
    exact hpixel ⟨py, hpy⟩ ⟨px, hpx⟩
  · simp only [← hwas]
    refine ⟨fun hone => ?_, hset⟩
    by_contra hnone
    rw [hclear hnone] at hone
    cases hone

/-- Settles O35: the rows one after another, each 64 long (R30, R242). -/
theorem linearIndexUsesTheWidth : Obligations.LinearIndexUsesTheWidth := by
  intro s
  have hflat : linearFb (hostFramebuffer s) = s.fb.flatten.toList := by
    simp only [linearFb, hostFramebuffer, Vector.toList, Vector.flatten, Array.toList_flatten, Array.toList_map,
      List.map_map]
    rfl
  rw [hflat]
  refine ⟨Vector.length_toList, fun x y => ?_⟩
  have hlt : y.val * 64 + x.val < 32 * 64 := by omega
  have hrow : (y.val * 64 + x.val) / 64 = y.val := by omega
  have hcol : (y.val * 64 + x.val) % 64 = x.val := by omega
  rw [List.getElem?_eq_getElem (by rw [Vector.length_toList]; exact hlt), Vector.getElem_toList, Vector.getElem_flatten]
  simp [hrow, hcol, State.pixel]

end Sys2Proof.Machine
end

section
/-! Registers and ALU: the flag instructions and the random byte (spec/42_alu.md, R176 to R182). -/

namespace Sys2Proof.Machine

/-- What an instruction does that answers a result and a flag, the flag last: for X = F the flag is what VF holds. -/
theorem result_and_flag_of_exec_eq_setVFlag {i : Instr} {s : State} {x : RegIx} {b f : Byte}
    (hexec : exec i s = .next (s.setVFlag x b f)) :
    ∃ t, exec i s = .next t ∧ (x ≠ 15 → t.getV x = b) ∧ t.getV 15 = f ∧ Frame { regs := [x, 15] } s t := by
  refine ⟨_, hexec, fun hx => ?_, State.setV_getV_same _ 15 f, Frame.setVFlag s x b f⟩
  rw [State.setVFlag_eq, State.setV_getV_ne _ _ _ _ hx, State.setV_getV_same]

theorem carryFlag_toNat (a b : Byte) : (carryFlag a b).toNat = if a.toNat + b.toNat > 255 then 1 else 0 := by
  simp only [carryFlag, flagByte_toNat, decide_eq_true_eq]

theorem noBorrowFlag_toNat (a b : Byte) : (noBorrowFlag a b).toNat = if a.toNat ≥ b.toNat then 1 else 0 := by
  simp only [noBorrowFlag, flagByte_toNat, decide_eq_true_eq]

theorem shrFlag_toNat (a : Byte) : (shrFlag a).toNat = a.toNat % 2 := by
  rw [shrFlag, BitVec.toNat_and]
  exact Nat.and_one_is_mod a.toNat

theorem shlFlag_toNat (a : Byte) : (shlFlag a).toNat = a.toNat / 128 := by
  have ha : a.toNat < 256 := a.isLt
  have hbit : (shlFlag a).toNat = a.toNat / 128 % 2 := by
    rw [shlFlag, BitVec.toNat_and, BitVec.toNat_ushiftRight, Nat.shiftRight_eq_div_pow]
    exact Nat.and_one_is_mod _
  omega

/-- R182: byte subtraction is the integer difference reduced into 0..255. -/
theorem toNat_sub_eq_emod (a b : Byte) : ((a - b).toNat : Int) = ((a.toNat : Int) - b.toNat) % 256 := by
  have hb : b.toNat < 256 := b.isLt
  rw [BitVec.toNat_sub]
  omega

/-- Settles O21: the byte sum is the sum modulo 256, the carry is what it drops (R176). -/
theorem addRegisterSetsCarry : Obligations.AddRegisterSetsCarry := by
  intro s x y
  obtain ⟨t, hexec, hresult, hflag, hframe⟩ := result_and_flag_of_exec_eq_setVFlag
    (show exec (.addReg x y) s = .next (s.setVFlag x (s.getV x + s.getV y) (carryFlag (s.getV x) (s.getV y))) from rfl)
  exact ⟨t, hexec, fun hx => hresult hx ▸ BitVec.toNat_add _ _, hflag ▸ carryFlag_toNat _ _, hframe⟩

/-- Settles O22: both are the byte difference of minuend and subtrahend, in their two orders (R177, R179). -/
theorem subtractionsSetNoBorrow : Obligations.SubtractionsSetNoBorrow := by
  intro s x y
  have hdifference {i : Instr} {a b : Byte} (hexec : exec i s = .next (s.setVFlag x (a - b) (noBorrowFlag a b))) :
      ∃ t, exec i s = .next t ∧ (x ≠ 15 → ((t.getV x).toNat : Int) = ((a.toNat : Int) - b.toNat) % 256) ∧
        (t.getV 15).toNat = (if a.toNat ≥ b.toNat then 1 else 0) ∧ Frame { regs := [x, 15] } s t := by
    obtain ⟨t, hexec, hresult, hflag, hframe⟩ := result_and_flag_of_exec_eq_setVFlag hexec
    exact ⟨t, hexec, fun hx => hresult hx ▸ toNat_sub_eq_emod a b, hflag ▸ noBorrowFlag_toNat a b, hframe⟩
  exact ⟨hdifference (i := .subReg x y) rfl, hdifference (i := .subnReg x y) rfl⟩

/-- Settles O23: halving and doubling, with the bit that falls out (R178, R180). -/
theorem shiftsMoveBitOutToFlag : Obligations.ShiftsMoveBitOutToFlag := by
  intro s x y
  have hshr : exec (.shr x y) s = .next (s.setVFlag x (s.getV x >>> 1) (shrFlag (s.getV x))) := rfl
  have hshl : exec (.shl x y) s = .next (s.setVFlag x (s.getV x <<< 1) (shlFlag (s.getV x))) := rfl
  obtain ⟨t, ht, hhalf, hbit0, htframe⟩ := result_and_flag_of_exec_eq_setVFlag hshr
  obtain ⟨u, hu, htwice, hbit7, huframe⟩ := result_and_flag_of_exec_eq_setVFlag hshl
  refine ⟨⟨t, ht, fun hx => ?_, hbit0 ▸ shrFlag_toNat _, htframe⟩,
    ⟨u, hu, fun hx => ?_, hbit7 ▸ shlFlag_toNat _, huframe⟩, fun z => ⟨rfl, rfl⟩⟩
  · rw [hhalf hx, BitVec.toNat_ushiftRight, Nat.shiftRight_eq_div_pow, pow_one]
  · rw [htwice hx, BitVec.toNat_shiftLeft, Nat.shiftLeft_eq, pow_one]

/-- Settles O24: the byte at the draw counter, masked, whatever it is (R181, log 1). -/
theorem randomDrawsOneByteAndMasks : Obligations.RandomDrawsOneByteAndMasks := by
  intro s x nn
  have hexec : exec (.rnd x nn) s = .next (s.drawRandom.2.setV x (Config.rngByte s.rngDraws &&& nn)) := rfl
  have hmask : (Config.rngByte s.rngDraws &&& nn).toNat ≤ nn.toNat := by
    rw [BitVec.toNat_and]
    exact Nat.and_le_right
  have hframe : Frame { regs := [x], draws := true } s (s.drawRandom.2.setV x (Config.rngByte s.rngDraws &&& nn)) :=
    { Frame.setV s.drawRandom.2 x _ with draws := nofun }
  exact ⟨_, hexec, State.setV_getV_same _ x _, (State.setV_getV_same _ x _).symm ▸ hmask, rfl, hframe⟩

end Sys2Proof.Machine
end

section
/-! Keys: the level tests, the wait and its poll (spec/45_keys_timers.md, spec/40_engine.md R125). -/

namespace Sys2Proof.Machine

/-- Settles O36: below 16 the register names a key whose level is tested, above it is the error (R260, R261). -/
theorem keySkipsTestTheLevel : Obligations.KeySkipsTestTheLevel := by
  intro s x
  refine ⟨fun h => ⟨⟨_, skipOnKey_of_lt true h, State.skipIf_frame s _, ?_⟩,
    ⟨_, skipOnKey_of_lt false h, State.skipIf_frame s _, ?_⟩⟩,
    fun h => ⟨skipOnKey_of_gt true h, skipOnKey_of_gt false h⟩⟩
  · cases hkey : s.key[(s.getV x).toNat] <;> simp [State.skipIf_eq]
  · cases hkey : s.key[(s.getV x).toNat] <;> simp [State.skipIf_eq]

/-- Settles O37: the lowest pressed key goes into VX; without one the fetch advance is undone (R262). -/
theorem keyWaitTakesLowestKeyOrWaits : Obligations.KeyWaitTakesLowestKeyOrWaits := by
  intro s x
  refine ⟨fun k hk => ?_, fun hnone => ?_⟩
  · obtain ⟨t, ht, hresult, hframe⟩ :=
      result_of_exec_eq_setV (exec_ldVxK_of_some x ((lowestPressed_eq_some_iff s k).mpr hk))
    exact ⟨t, ht, hresult ▸ keyByte_toNat k, hframe⟩
  · refine ⟨_, exec_ldVxK_of_none x ((lowestPressed_eq_none_iff s).mpr hnone), rfl, rfl, ?_⟩
    constructor <;> simp

/-- Settles O38: the poll's two cases (R125). -/
theorem pollTakesLowestKeyOrKeepsWaiting : Obligations.PollTakesLowestKeyOrKeepsWaiting := by
  intro s x hmode
  rw [step_of_waiting hmode]
  refine ⟨fun k hk => ?_, fun hnone => keyWaitPoll_of_none x ((lowestPressed_eq_none_iff s).mpr hnone)⟩
  refine ⟨_, keyWaitPoll_of_some x ((lowestPressed_eq_some_iff s k).mpr hk), ?_, rfl, rfl, ?_⟩
  · simp
  · constructor <;> simp +contextual [State.setV_getV]

/-- Settles O39: with a key both write VX and pass the FX0A; without one the re-executed FX0A rewinds PC and enters the
mode the machine is in (R125, C7). -/
theorem pollEqualsReexecution : Obligations.PollEqualsReexecution := by
  intro s x hmode hfetch
  have hre : step { s with mode := .running } = exec (.ldVxK x) (s.setMode .running).advance :=
    step_of_fetchWord_encode (s := s.setMode .running) rfl rfl hfetch
  rw [step_of_waiting hmode, hre]
  cases hk : lowestPressed s
  case some k =>
    rw [keyWaitPoll_of_some x hk, exec_ldVxK_of_some x (s := (s.setMode .running).advance) hk]
    rfl
  case none =>
    rw [keyWaitPoll_of_none x hk, exec_ldVxK_of_none x (s := (s.setMode .running).advance) hk, State.advance_rewind,
      ← hmode]
    rfl

/-- One idle call on a machine that waits with no key pressed changes the timers at most (R125, R312). -/
theorem call_idle_of_waiting {s : State} {x : RegIx} {c : HostCall} (hmode : s.mode = .waitingForKey x)
    (hnone : NoKeyPressed s) (hidle : IsIdleCall c = true) :
    ∃ d e, (call c s).1 = { s with dt := d, st := e } := by
  cases c
  case step =>
    have hstep : step s = .next s :=
      (step_of_waiting hmode).trans (keyWaitPoll_of_none x ((lowestPressed_eq_none_iff s).mpr hnone))
    exact ⟨s.dt, s.st, by simp only [call, hstep, settle]⟩
  case tickTimers => exact ⟨countDown s.dt, countDown s.st, rfl⟩
  case framebuffer => exact ⟨s.dt, s.st, rfl⟩
  case construct | reset | load | setKey => cases hidle

/-- Settles O40: by induction on the schedule; after each idle call the machine still waits with no key pressed. -/
theorem waitLastsUntilAKeyIsPressed : Obligations.WaitLastsUntilAKeyIsPressed := by
  intro s x cs
  induction cs generalizing s with
  | nil => exact fun _ _ _ => rfl
  | cons c cs ih =>
    intro hmode hnone hidle
    obtain ⟨hc, hcs⟩ := List.forall_mem_cons.mp hidle
    obtain ⟨d, e, hcall⟩ := call_idle_of_waiting hmode hnone hc
    have hrest := ih { s with dt := d, st := e } hmode hnone hcs
    simp only [runCalls, hcall]
    rw [hrest]

end Sys2Proof.Machine
end

section
/-! The host interface: tick, reset, set_key (spec/60_exceptions.md, spec/70_reset_and_hazards.md). -/

namespace Sys2Proof.Machine

/-- Settles O43: the tick writes the counted-down timers and nothing else (R311, R312). -/
theorem tickReportsToneEdge : Obligations.TickReportsToneEdge := by
  intro s
  have hedge : (hostTick s).2 = true ↔ s.st.toNat = 1 := by
    rw [show (hostTick s).2 = (s.st == 1) from rfl, beq_iff_eq, ← BitVec.toNat_inj]
    rfl
  refine ⟨countDown_toNat s.st, hedge, ?_⟩
  constructor <;> simp [hostTick]

/-- R340: above the font's 80 bytes the reset contents are 0. -/
theorem Memory.background_of_ge {a : Nat} (h : 80 ≤ a) : Memory.background a = 0 :=
  List.getD_eq_default _ _ h

/-- Settles O45: all three give the one initial machine state, whose components are these (R340, R341). -/
theorem resetGivesInitialState : Obligations.ResetGivesInitialState := by
  intro s t ht
  have hinit : t.toMachineState = MachineState.initial := by rcases ht with rfl | rfl | rfl <;> rfl
  obtain ⟨m, draws⟩ := t
  subst hinit
  refine ⟨rfl, fun a ha => ?_, fun a ha _ => Memory.background_of_ge ha, ?_⟩
  · have hlt : a < Config.font.length := ha
    exact (List.getElem?_eq_getElem hlt).trans (congrArg some (List.getD_eq_getElem _ _ hlt).symm)
  · exact ⟨by simp [State.getV, MachineState.initial], rfl, rfl, rfl, by simp [MachineState.initial], rfl, rfl,
      by simp [NoKeyPressed, MachineState.initial], by simp [State.pixel, MachineState.initial], rfl⟩

/-- Settles O46: the reset memory read at the eighty addresses (R66). -/
theorem fontGlyphsAtReset : Obligations.FontGlyphsAtReset := by
  unfold Obligations.FontGlyphsAtReset
  decide

/-- Settles O48: an index that is a key sets that key alone, another is the error (R322). -/
theorem setKeyChangesOneKey : Obligations.SetKeyChangesOneKey := by
  intro s k p
  refine ⟨fun hk => ⟨_, hostSetKey_of_lt p s hk, ?_, fun j hj => ?_, rfl⟩, hostSetKey_of_gt p s⟩
  · simp
  · simp [hj.symm]

end Sys2Proof.Machine
end

section
/-! Which instructions change which component, and VF among them (spec/40_engine.md R124, spec/10_state.md R22). -/

namespace Sys2Proof.Machine

theorem exec_call_next {nnn : Addr12} {s t : State} (h : exec (.call nnn) s = .next t) :
    ∃ hroom : s.sp.val < Config.stackDepth, t = { s with
      stack := s.stack.set s.sp.val s.pc hroom, sp := ⟨s.sp.val + 1, Nat.succ_lt_succ hroom⟩, pc := zext16 nnn } := by
  by_cases hroom : s.sp.val < Config.stackDepth
  · rw [exec_call_of_lt nnn hroom] at h
    cases h
    exact ⟨hroom, rfl⟩
  · rw [exec_call_of_full nnn (by omega)] at h
    cases h

theorem exec_ret_next {s t : State} (h : exec .ret s = .next t) :
    ∃ (n : Nat) (hn : n < Config.stackDepth), s.sp.val = n + 1 ∧
      t = { s with sp := ⟨n, Nat.lt_succ_of_lt hn⟩, pc := s.stack[n] } := by
  cases hsp : s.sp.val
  case zero => rw [exec_ret_of_empty hsp] at h; cases h
  case succ n =>
    have hn : n < Config.stackDepth := by omega
    rw [exec_ret_of_eq_succ hn hsp] at h
    cases h
    exact ⟨n, hn, rfl, rfl⟩

theorem skipOnKey_next {x : RegIx} {p : Bool} {s t : State} (h : skipOnKey x p s = .next t) : ∃ c, t = s.skipIf c := by
  by_cases hkey : (s.getV x).toNat < 16
  · rw [skipOnKey_of_lt p hkey] at h
    cases h
    exact ⟨_, rfl⟩
  · rw [skipOnKey_of_gt p (by omega)] at h
    cases h

theorem exec_ldVxK_next {x : RegIx} {s t : State} (h : exec (.ldVxK x) s = .next t) :
    (∃ b, t = s.setV x b) ∨ t = s.rewind.setMode (.waitingForKey x) := by
  cases hk : lowestPressed s
  case none => rw [exec_ldVxK_of_none x hk] at h; cases h; exact .inr rfl
  case some k => rw [exec_ldVxK_of_some x hk] at h; cases h; exact .inl ⟨_, rfl⟩

/-- Settles O53: instruction by instruction, the components of its next state (R124). -/
theorem onlyNamedInstructionsChangeComponents : Obligations.OnlyNamedInstructionsChangeComponents := by
  intro i s t h
  cases i
  case call nnn => obtain ⟨hroom, rfl⟩ := exec_call_next h; simp
  case ret => obtain ⟨n, hn, -, rfl⟩ := exec_ret_next h; simp
  case seImm | sneImm | seReg | sneReg => cases h; simp [State.skipIf_eq]
  case skp x => obtain ⟨c, rfl⟩ := skipOnKey_next (p := true) h; simp [State.skipIf_eq]
  case sknp x => obtain ⟨c, rfl⟩ := skipOnKey_next (p := false) h; simp [State.skipIf_eq]
  case drw | ldBVx | ldMemVx | ldVxMem => obtain ⟨-, h⟩ := whenInMemory_next h; cases h; simp
  case ldVxK x => rcases exec_ldVxK_next h with ⟨b, rfl⟩ | rfl <;> simp
  all_goals cases h; simp

/-- A write of one register that changes VF is a write of VF. -/
theorem State.eq_flag_of_setV_ne {s : State} {x : RegIx} {b : Byte} (h : (s.setV x b).getV 15 ≠ s.getV 15) : x = 15 := by
  by_contra hx
  exact h (State.setV_getV_ne s x 15 b (Ne.symm hx))

/-- Settles O54: an instruction that changes VF is a flag instruction or writes the register X = F (R22). -/
theorem flagRegisterChangesOnlyByNamedInstructions : Obligations.FlagRegisterChangesOnlyByNamedInstructions := by
  intro i s t h hvf
  cases i
  case addReg | subReg | shr | subnReg | shl | drw => simp
  case ldImm | addImm | ldReg | orReg | andReg | xorReg | ldVxDt =>
    cases h
    cases State.eq_flag_of_setV_ne hvf
    simp
  case rnd x nn =>
    cases h
    cases State.eq_flag_of_setV_ne (s := s.drawRandom.2) hvf
    simp
  case ldVxK x =>
    rcases exec_ldVxK_next h with ⟨b, rfl⟩ | rfl
    · cases State.eq_flag_of_setV_ne hvf
      simp
    · exact absurd rfl hvf
  case ldVxMem x =>
    obtain ⟨-, h⟩ := whenInMemory_next h
    cases h
    have hx : x = 15 := by
      by_contra hx
      have hgt : ¬(15 : RegIx) ≤ x := fun hle => hx (le_antisymm (Fin.le_last x) hle)
      exact hvf (by rw [State.loadRegs_getV, if_neg hgt])
    simp [hx]
  case call nnn => obtain ⟨hroom, rfl⟩ := exec_call_next h; exact absurd rfl hvf
  case ret => obtain ⟨n, hn, -, rfl⟩ := exec_ret_next h; exact absurd rfl hvf
  case seImm | sneImm | seReg | sneReg => cases h; exact absurd (by simp [State.skipIf_eq]) hvf
  case skp x => obtain ⟨c, rfl⟩ := skipOnKey_next (p := true) h; exact absurd (by simp [State.skipIf_eq]) hvf
  case sknp x => obtain ⟨c, rfl⟩ := skipOnKey_next (p := false) h; exact absurd (by simp [State.skipIf_eq]) hvf
  case ldBVx | ldMemVx => obtain ⟨-, h⟩ := whenInMemory_next h; cases h; exact absurd rfl hvf
  all_goals cases h; exact absurd rfl hvf

end Sys2Proof.Machine
end

section
/-! What an instruction does not observe: the timers, the stack and the draw counter, but for the few instructions that
name them (spec/10_state.md R26, R28, spec/40_engine.md R128, spec/60_exceptions.md R312). -/

namespace Sys2Proof.Machine

/-- A change of the components that most instructions neither read nor write: the stack's slots, the timers and the count
of drawn bytes. A tick is one. -/
structure HiddenChange where
  stack : Vector Word Config.stackDepth → Vector Word Config.stackDepth := id
  dt : Byte → Byte := id
  st : Byte → Byte := id
  draws : Nat → Nat := id

/-- The changed state. -/
def HiddenChange.apply (f : HiddenChange) (s : State) : State :=
  { s with stack := f.stack s.stack, dt := f.dt s.dt, st := f.st s.st, rngDraws := f.draws s.rngDraws }

/-- The outcome with its next state, if it has one, changed. -/
def mapNext (f : HiddenChange) : Host.Outcome State Fault Refusal → Host.Outcome State Fault Refusal
  | .next s => .next (f.apply s)
  | .fault e => .fault e
  | .refused r => .refused r

theorem outcomesRelated_mapNext {R : State → State → Prop} {f : HiddenChange} {o : Host.Outcome State Fault Refusal}
    (h : ∀ u, o = .next u → R u (f.apply u)) : OutcomesRelated R o (mapNext f o) := by
  cases o
  case next u => exact h u rfl
  case fault e => rfl
  case refused r => rfl

theorem HiddenChange.apply_skipIf (f : HiddenChange) (s : State) (c : Bool) :
    f.apply (s.skipIf c) = (f.apply s).skipIf c := by
  cases c <;> rfl

theorem mapNext_whenInMemory (f : HiddenChange) (a n : Nat) (t : State) :
    mapNext f (whenInMemory a n (.next t)) = whenInMemory a n (.next (f.apply t)) := by
  by_cases h : InMemory a n
  · rw [whenInMemory_of _ _ _ h, whenInMemory_of _ _ _ h]; rfl
  · rw [whenInMemory_of_not _ _ _ h, whenInMemory_of_not _ _ _ h]; rfl

theorem skipOnKey_apply (f : HiddenChange) (x : RegIx) (p : Bool) (s : State) :
    skipOnKey x p (f.apply s) = mapNext f (skipOnKey x p s) := by
  by_cases h : (s.getV x).toNat < 16
  · rw [skipOnKey_of_lt p h, skipOnKey_of_lt (s := f.apply s) p h]
    exact congrArg Host.Outcome.next (f.apply_skipIf s _).symm
  · have hgt : 15 < (s.getV x).toNat := by omega
    rw [skipOnKey_of_gt p hgt, skipOnKey_of_gt (s := f.apply s) p hgt]
    rfl

theorem keyWaitPoll_apply (f : HiddenChange) (x : RegIx) (s : State) :
    keyWaitPoll x (f.apply s) = mapNext f (keyWaitPoll x s) := by
  cases hk : lowestPressed s
  case none => rw [keyWaitPoll_of_none x hk, keyWaitPoll_of_none (s := f.apply s) x hk]; rfl
  case some k => rw [keyWaitPoll_of_some x hk, keyWaitPoll_of_some (s := f.apply s) x hk]; rfl

theorem exec_ldVxK_apply (f : HiddenChange) (x : RegIx) (s : State) :
    exec (.ldVxK x) (f.apply s) = mapNext f (exec (.ldVxK x) s) := by
  cases hk : lowestPressed s
  case none => rw [exec_ldVxK_of_none x hk, exec_ldVxK_of_none (s := f.apply s) x hk]; rfl
  case some k => rw [exec_ldVxK_of_some x hk, exec_ldVxK_of_some (s := f.apply s) x hk]; rfl

/-- A call does the same before and after a change that leaves the stack's slots. -/
theorem exec_call_apply {f : HiddenChange} (hf : f.stack = id) (nnn : Addr12) (s : State) :
    exec (.call nnn) (f.apply s) = mapNext f (exec (.call nnn) s) := by
  have hstack (v : Vector Word Config.stackDepth) : f.stack v = v := congrFun hf v
  by_cases hroom : s.sp.val < Config.stackDepth
  · rw [exec_call_of_lt nnn hroom, exec_call_of_lt (s := f.apply s) nnn hroom]
    simp [mapNext, HiddenChange.apply, hstack]
  · have hfull : s.sp.val = Config.stackDepth := by omega
    rw [exec_call_of_full nnn hfull, exec_call_of_full (s := f.apply s) nnn hfull]
    rfl

/-- A return does the same before and after a change that leaves the stack's slots. -/
theorem exec_ret_apply {f : HiddenChange} (hf : f.stack = id) (s : State) :
    exec .ret (f.apply s) = mapNext f (exec .ret s) := by
  have hstack (v : Vector Word Config.stackDepth) : f.stack v = v := congrFun hf v
  cases hsp : s.sp.val
  case zero => rw [exec_ret_of_empty hsp, exec_ret_of_empty (s := f.apply s) hsp]; rfl
  case succ n =>
    have hn : n < Config.stackDepth := by omega
    rw [exec_ret_of_eq_succ hn hsp, exec_ret_of_eq_succ (s := f.apply s) hn hsp]
    simp [mapNext, HiddenChange.apply, hstack]

/-- An instruction that names none of the changed components does the same before and after the change. -/
theorem exec_apply {f : HiddenChange} {i : Instr} (s : State)
    (hstack : f.stack = id ∨ ∀ nnn, i ≠ .ret ∧ i ≠ .call nnn)
    (hdt : f.dt = id ∨ ∀ x, i ≠ .ldVxDt x ∧ i ≠ .ldDtVx x)
    (hst : f.st = id ∨ ∀ x, i ≠ .ldStVx x) (hdraws : f.draws = id ∨ ∀ x nn, i ≠ .rnd x nn) :
    exec i (f.apply s) = mapNext f (exec i s) := by
  cases i
  case call nnn => exact exec_call_apply (hstack.resolve_right fun h => (h nnn).2 rfl) nnn s
  case ret => exact exec_ret_apply (hstack.resolve_right fun h => (h 0).1 rfl) s
  case ldVxDt x =>
    obtain ⟨stack, dt, st, draws⟩ := f
    obtain rfl : dt = id := hdt.resolve_right fun h => (h x).1 rfl
    rfl
  case ldDtVx x =>
    obtain ⟨stack, dt, st, draws⟩ := f
    obtain rfl : dt = id := hdt.resolve_right fun h => (h x).2 rfl
    rfl
  case ldStVx x =>
    obtain ⟨stack, dt, st, draws⟩ := f
    obtain rfl : st = id := hst.resolve_right fun h => h x rfl
    rfl
  case rnd x nn =>
    obtain ⟨stack, dt, st, draws⟩ := f
    obtain rfl : draws = id := hdraws.resolve_right fun h => h x nn rfl
    rfl
  case seImm | sneImm | seReg | sneReg => exact congrArg Host.Outcome.next (f.apply_skipIf s _).symm
  case skp x => exact skipOnKey_apply f x true s
  case sknp x => exact skipOnKey_apply f x false s
  case drw | ldBVx | ldMemVx | ldVxMem =>
    simp only [exec, execDrw, execLdBVx, execLdMemVx, execLdVxMem, mapNext_whenInMemory]
    rfl
  case ldVxK x => exact exec_ldVxK_apply f x s
  all_goals rfl

/-- The change of a tick (R310, R311). -/
def HiddenChange.tick : HiddenChange := { dt := countDown, st := countDown }

/-- Another ST. -/
def HiddenChange.sound (b : Byte) : HiddenChange := { st := fun _ => b }

/-- Other contents of the stack's slots. -/
def HiddenChange.slots (v : Vector Word Config.stackDepth) : HiddenChange := { stack := fun _ => v }

/-- Another position in the input of random bytes (log 1). -/
def HiddenChange.drawn (n : Nat) : HiddenChange := { draws := fun _ => n }

theorem hostTick_eq_apply (s : State) : (hostTick s).1 = HiddenChange.tick.apply s := rfl

/-- Settles O44: the tick changes the two timers, and the instruction names neither (R312, R346). -/
theorem tickCommutesWithOtherInstructions : Obligations.TickCommutesWithOtherInstructions := by
  intro i s hi
  have hcommutes : exec i (HiddenChange.tick.apply s) = mapNext .tick (exec i s) :=
    exec_apply s (.inl rfl) (.inr fun x => ⟨(hi x).1, (hi x).2.1⟩) (.inr fun x => (hi x).2.2) (.inl rfl)
  rw [hostTick_eq_apply, hcommutes]
  exact outcomesRelated_mapNext fun _ _ => rfl

/-- A step on a changed state: related to the step on the state itself when the poll's next states are, and when the
executed instruction's outcomes are. -/
theorem step_apply_related {R : State → State → Prop} {f : HiddenChange} {s : State}
    (hpoll : ∀ x u, keyWaitPoll x s = .next u → R u (f.apply u))
    (hexec : ∀ w i, s.mode = .running → s.fetchWord = some w → decodeWord w = .instr i →
      OutcomesRelated R (exec i s.advance) (exec i (f.apply s.advance))) :
    OutcomesRelated R (step s) (step (f.apply s)) := by
  cases hmode : s.mode
  case waitingForKey x =>
    rw [step_of_waiting hmode, step_of_waiting (s := f.apply s) hmode, keyWaitPoll_apply]
    exact outcomesRelated_mapNext (hpoll x)
  case running =>
    cases hfetch : s.fetchWord
    case none =>
      rw [step_of_fetchWord_none hmode hfetch, step_of_fetchWord_none (s := f.apply s) hmode hfetch]
      rfl
    case some w =>
      cases hdecode : decodeWord w
      case unimplemented v =>
        rw [step_of_unimplemented hmode hfetch hdecode, step_of_unimplemented (s := f.apply s) hmode hfetch hdecode]
        rfl
      case instr i =>
        rw [step_of_instr hmode hfetch hdecode, step_of_instr (s := f.apply s) hmode hfetch hdecode]
        exact hexec w i hmode hfetch hdecode

/-- Settles O55: only FX18 names ST, and it overwrites it (R28). -/
theorem soundTimerIsUnobservable : Obligations.SoundTimerIsUnobservable := by
  intro s t h
  have ht : t = (HiddenChange.sound t.st).apply s := h
  rw [ht]
  refine step_apply_related (fun _ _ _ => rfl) fun w i _ _ _ => ?_
  by_cases hi : ∃ x, i = .ldStVx x
  · obtain ⟨x, rfl⟩ := hi
    exact rfl
  · rw [exec_apply _ (.inl rfl) (.inl rfl) (.inr fun x hx => hi ⟨x, hx⟩) (.inl rfl)]
    exact outcomesRelated_mapNext fun _ _ => rfl

/-- A call writes the first free slot, so the slots below the new SP agree again. -/
theorem exec_call_slots_related (nnn : Addr12) {s : State} {v : Vector Word Config.stackDepth}
    (hv : ∀ k : Fin Config.stackDepth, k.val < s.sp.val → v[k] = s.stack[k]) :
    OutcomesRelated SameButFreeSlots (exec (.call nnn) s) (exec (.call nnn) ((HiddenChange.slots v).apply s)) := by
  by_cases hroom : s.sp.val < Config.stackDepth
  · rw [exec_call_of_lt nnn hroom, exec_call_of_lt (s := (HiddenChange.slots v).apply s) nnn hroom]
    refine ⟨rfl, fun k hk => ?_⟩
    show (v.set s.sp.val s.pc hroom)[k.val] = (s.stack.set s.sp.val s.pc hroom)[k.val]
    rw [Vector.getElem_set, Vector.getElem_set]
    split
    case isTrue => rfl
    case isFalse hne => exact hv k (Nat.lt_of_le_of_ne (Nat.le_of_lt_succ hk) (Ne.symm hne))
  · have hfull : s.sp.val = Config.stackDepth := by omega
    rw [exec_call_of_full nnn hfull, exec_call_of_full (s := (HiddenChange.slots v).apply s) nnn hfull]
    rfl

/-- A return reads the topmost entry, which lies below SP. -/
theorem exec_ret_slots_related {s : State} {v : Vector Word Config.stackDepth}
    (hv : ∀ k : Fin Config.stackDepth, k.val < s.sp.val → v[k] = s.stack[k]) :
    OutcomesRelated SameButFreeSlots (exec .ret s) (exec .ret ((HiddenChange.slots v).apply s)) := by
  cases hsp : s.sp.val
  case zero =>
    rw [exec_ret_of_empty hsp, exec_ret_of_empty (s := (HiddenChange.slots v).apply s) hsp]
    rfl
  case succ n =>
    have hn : n < Config.stackDepth := by omega
    have htop : v[n] = s.stack[n] := hv ⟨n, hn⟩ (by rw [hsp]; exact Nat.lt_succ_self n)
    rw [exec_ret_of_eq_succ hn hsp, exec_ret_of_eq_succ (s := (HiddenChange.slots v).apply s) hn hsp]
    refine ⟨?_, fun k hk => hv k (by rw [hsp]; exact Nat.lt_succ_of_lt hk)⟩
    show ({ s with stack := v, sp := ⟨n, _⟩, pc := v[n] } : State) =
      { s with stack := v, sp := ⟨n, _⟩, pc := s.stack[n] }
    rw [htop]

/-- Settles O56: the call and the return by their lemmas; no other instruction names the stack (R26). -/
theorem freeStackSlotsAreUnobservable : Obligations.FreeStackSlotsAreUnobservable := by
  intro s t ⟨hsame, hslots⟩
  have ht : t = (HiddenChange.slots t.stack).apply s := hsame
  have hrelated {u : State} (hstack : u.stack = s.stack) (hsp : u.sp = s.sp) :
      SameButFreeSlots u ((HiddenChange.slots t.stack).apply u) :=
    ⟨rfl, fun k hk => by rw [hstack]; exact hslots k (hsp ▸ hk)⟩
  rw [ht]
  refine step_apply_related (fun x u hu => ?_) fun w i _ _ _ => ?_
  · rcases keyWaitPoll_next_cases hu with rfl | ⟨k, rfl⟩ <;> exact hrelated rfl rfl
  by_cases hcall : ∃ nnn, i = .call nnn
  · obtain ⟨nnn, rfl⟩ := hcall
    exact exec_call_slots_related nnn (s := s.advance) hslots
  by_cases hret : i = .ret
  · subst hret
    exact exec_ret_slots_related (s := s.advance) hslots
  · rw [exec_apply _ (.inr fun nnn => ⟨hret, fun hc => hcall ⟨nnn, hc⟩⟩) (.inl rfl) (.inl rfl) (.inl rfl)]
    refine outcomesRelated_mapNext fun u hu => ?_
    obtain ⟨-, -, -, hsp, hstack, -⟩ := onlyNamedInstructionsChangeComponents i s.advance u hu
    exact hrelated (by_contra fun hne => hcall (hstack hne))
      (by_contra fun hne => (hsp hne).elim hret hcall)

/-- Settles O57: only CXNN names the draw counter, and through it only the byte drawn there (R128, log 1). -/
theorem randomnessEntersOnlyThroughCxnn : Obligations.RandomnessEntersOnlyThroughCxnn := by
  intro s t h hbyte
  have ht : t = (HiddenChange.drawn t.rngDraws).apply s := by
    obtain ⟨m, d⟩ := s
    obtain ⟨m', d'⟩ := t
    cases h
    rfl
  rw [ht]
  refine step_apply_related (fun _ _ _ => rfl) fun w i hmode hfetch hdecode => ?_
  by_cases hi : ∃ x nn, i = .rnd x nn
  · obtain ⟨x, nn, rfl⟩ := hi
    have hsame := hbyte ⟨hmode, w, x, nn, hfetch, hdecode⟩
    show (s.setV x (Config.rngByte s.rngDraws &&& nn)).advance.toMachineState =
      (s.setV x (Config.rngByte t.rngDraws &&& nn)).advance.toMachineState
    rw [hsame]
  · rw [exec_apply _ (.inl rfl) (.inl rfl) (.inl rfl) (.inr fun x nn hx => hi ⟨x, nn, hx⟩)]
    exact outcomesRelated_mapNext fun _ _ => rfl

end Sys2Proof.Machine
end
